-- ==== Sys2Proof/Word.lean ====
section
/-! DEFINITION. The word, byte and register-array types of the core (spec/00_scope.md R3, R4). -/

namespace Sys2Proof

/-- A word: an unsigned 32-bit value, bit 31 the most significant (R4).
`+` on it is addition modulo 2^32 and `&&&`, `|||`, `^^^`, `~~~` are the bitwise operations (R5). -/
abbrev Word := BitVec 32

/-- A byte of a byte string (R7). -/
abbrev Byte := BitVec 8

/-- A hash state: five words, `H[0] = a` to `H[4] = e` (R18). The type of `H`, `INNER`, `OUTER` and `T`. -/
abbrev Hash := Vector Word 5

/-- A word block: sixteen words, 512 bits (R17). The type of `W` and of the hidden buffer `S`. -/
abbrev Block := Vector Word 16

/-- The thirteen salt words (R16). -/
abbrev SaltBank := Vector Word 13

/-- A register index of the port: 7 bits, so every index from 0x00 to 0x7F and no other (R30, R36). -/
abbrev SlotIndex := BitVec 7

end Sys2Proof
end

