-- ==== Sys2Proof/Config.lean ====
section
/-! DEFINITION. The fixed parameters of this hardware (spec/00_scope.md R3) and the free values the spec leaves open
(spec/10_state.md R24, R26; spec/93_implementation_defined.md U11). -/

namespace Sys2Proof

/-- `ROUNDS`: steps per compression (R3). -/
def Config.rounds : Nat := 80

/-- `MAX_MSG1`: bytes of the largest message one padded block holds (R3, R99). -/
def Config.maxMessage : Nat := 55

/-- `MAX_SALT`: bytes of the largest salt PBLK accepts (R3, R15). -/
def Config.maxSalt : Nat := 51

/-- `HASH_BYTES`: bytes of one hash output (R3). -/
def Config.hashBytes : Nat := 20

/-- Bytes of one word block (R3, `BLOCK_WORDS`). -/
def Config.blockBytes : Nat := 64

/-- FREE VALUE: word `position` of what the hidden engine state holds at the `occasion`-th time the spec leaves it open
(R24, R26, U11). No body: nothing can be proved about its value. -/
opaque Config.freeWord (occasion position : Nat) : Word

/-- FREE VALUE: the hidden step counter `t` at the `occasion`-th open time, within the bound 0 to 80 of R24. -/
opaque Config.freeStepCounter (occasion : Nat) : Fin 81

/-- FREE VALUE: the hidden latch `OP` between commands and after a reset (R26: unspecified; U11: any value). -/
opaque Config.freeOpcode (occasion : Nat) : BitVec 8

end Sys2Proof
end

