-- ==== Sys2Proof/Syntax.lean ====
section
/-! DEFINITION. Syntax: the six commands (spec/30_encoding.md R47), the two fields of a command word (R45), the names of
the register slots (spec/10_state.md R10), the errors (spec/60_exceptions.md R120), the moves of the core's environment
(spec/20_memory.md R31, R32; spec/30_encoding.md R50; spec/70_reset_and_hazards.md R140) and a key derivation call (R101). -/

namespace Sys2Proof

/-- The commands of the opcode map, one constructor a row (R47). Operands are implicit (R46). -/
inductive Instr where
  /-- load the SHA-1 initial state (R70) -/
  | ldiv
  /-- one SHA-1 compression step (R71) -/
  | comp
  /-- key block from digest (R80) -/
  | kdig
  /-- HMAC state precomputation (R81) -/
  | hkey
  /-- one PBKDF2 output block (R97) -/
  | pblk
  /-- return the core to its reset state (R110) -/
  | clr
deriving DecidableEq, Repr

/-- A command word split into its two fields (R45). -/
structure CommandFields where
  /-- bits 7:0 -/
  opcode : BitVec 8
  /-- bits 31:8, which must be 0 -/
  zero : BitVec 24
deriving DecidableEq, Repr

/-- What a register index names (R10, R22, R36). -/
inductive Slot where
  | cmd
  | status
  | iter
  | blkidx
  | saltlen
  | w (j : Fin 16)
  | h (j : Fin 5)
  | inner (j : Fin 5)
  | outer (j : Fin 5)
  | t (j : Fin 5)
  | salt (j : Fin 13)
  | reserved
deriving DecidableEq, Repr

/-- The six errors the core records (R120). -/
inductive CoreError where
  | illcmd
  | noctx
  | iterz
  | saltlen
  | busywr
  | badwr
deriving DecidableEq, Repr

/-- One move of the core's surroundings: a host transaction, a turn given to the engine, or the reset event.
A list of these is an interleaving of the host's program order with the engine and with `reset` (R37, R50, R141, R150). -/
inductive Move where
  /-- the host transaction `MemRead(idx, 4)` (R31) -/
  | read (idx : SlotIndex)
  /-- the host transaction `MemWrite(idx, 4, v)` (R32) -/
  | write (idx : SlotIndex) (v : Word)
  /-- the engine's turn: `Complete` when it is enabled (R50) -/
  | engine
  /-- the reset event of the environment (R140) -/
  | reset
deriving DecidableEq, Repr

/-- The arguments of the host procedure `HostDeriveKey(P, s, c, k)` (R101). -/
structure DeriveCall where
  password : List Byte
  salt : List Byte
  iterations : Nat
  keyLength : Nat
deriving DecidableEq, Repr

/-- `numBlocks = ceil(k / 20)` (R101, R9). -/
def DeriveCall.numBlocks (call : DeriveCall) : Nat :=
  (call.keyLength + 19) / 20

end Sys2Proof
end

