-- ==== Sys2Proof/WellFormed.lean ====
section
/-! DEFINITION. Well-formedness: which commands, command words and derivation calls the spec admits
(spec/30_encoding.md R45, R47, R48, R53; spec/42_pbkdf2_iteration.md R101). -/

namespace Sys2Proof

/-- Every command is well formed: none carries an operand that could be out of range (R46). -/
def Instr.wellFormed : Instr → Bool
  | .ldiv => true
  | .comp => true
  | .kdig => true
  | .hkey => true
  | .pblk => true
  | .clr => true

/-- Bits 31:8 of a command word must be 0 (R45). -/
def CommandFields.zeroClear (f : CommandFields) : Bool :=
  f.zero == 0

/-- The opcode must be one of 1 to 6 (R47, R48). -/
def CommandFields.opcodeListed (f : CommandFields) : Bool :=
  decide (1 ≤ f.opcode.toNat ∧ f.opcode.toNat ≤ 6)

/-- A command word is legal when both fields are (R48). -/
def CommandFields.wellFormed (f : CommandFields) : Bool :=
  f.zeroClear && f.opcodeListed

/-- `LDKEY` takes at most 64 bytes (R53). -/
def keyFitsBlock (p : List Byte) : Bool :=
  decide (p.length ≤ Config.blockBytes)

/-- `LDSALT` takes at most 51 bytes (R53); the same bound is `len(s) + 4 ≤ 55` (R99, R101). -/
def saltFits (s : List Byte) : Bool :=
  decide (s.length ≤ Config.maxSalt)

/-- `1 ≤ c ≤ 2^32 - 1` (R101). -/
def iterationsFit (c : Nat) : Bool :=
  decide (1 ≤ c ∧ c ≤ 2 ^ 32 - 1)

/-- `k ≥ 1` and `ceil(k / 20) ≤ 2^32 - 1` (R101). -/
def DeriveCall.keyLengthFits (call : DeriveCall) : Bool :=
  decide (1 ≤ call.keyLength ∧ call.numBlocks ≤ 2 ^ 32 - 1)

/-- The preconditions the host checks before it touches the core (R101). -/
def DeriveCall.wellFormed (call : DeriveCall) : Bool :=
  saltFits call.salt && iterationsFit call.iterations && call.keyLengthFits

end Sys2Proof
end

