-- ==== Sys2Proof/Decode.lean ====
section
/-! DEFINITION. The command decoder, total on every 32-bit word and rejecting by name, and the encoder
(spec/30_encoding.md R45 to R48). -/

namespace Sys2Proof

/-- Why a word is no command (R48). -/
inductive DecodeError where
  /-- a bit of 31:8 is set -/
  | nonzeroUpperBits
  /-- opcode 0x00 or 0x07 to 0xFF -/
  | reservedOpcode
deriving DecidableEq, Repr

/-- `v[7:0]` and `v[31:8]` (R45). -/
def commandFields (v : Word) : CommandFields :=
  { opcode := v.extractLsb' 0 8, zero := v.extractLsb' 8 24 }

/-- The opcode map read from opcode to command (R47). -/
def decodeOpcode (op : BitVec 8) : Except DecodeError Instr :=
  match op.toNat with
  | 1 => .ok .ldiv
  | 2 => .ok .comp
  | 3 => .ok .kdig
  | 4 => .ok .hkey
  | 5 => .ok .pblk
  | 6 => .ok .clr
  | _ => .error .reservedOpcode

/-- The command decoder: it looks at one word and compares it with six constants (R45, R48). -/
def decode (v : Word) : Except DecodeError Instr :=
  if (commandFields v).zeroClear then decodeOpcode (commandFields v).opcode else .error .nonzeroUpperBits

/-- The opcode map read from command to opcode (R47). -/
def opcodeOf : Instr → BitVec 8
  | .ldiv => 0x01
  | .comp => 0x02
  | .kdig => 0x03
  | .hkey => 0x04
  | .pblk => 0x05
  | .clr => 0x06

/-- The command word of a command: the opcode in bits 7:0 under 24 zero bits (R45, R47). -/
def encode (i : Instr) : Word :=
  (0 : BitVec 24) ++ opcodeOf i

/-- The command the decoder reads from a table word of `nbits` bits whose value is `w`.
Every row of the table is one 32-bit command word, and the port has no byte order of its own (R33; notes/assumptions/10.md). -/
def decodeTableWord (nbits w : Nat) : Option Instr :=
  let v := w % 2 ^ nbits
  if v < 2 ^ 32 then (decode (BitVec.ofNat 32 v)).toOption else none

end Sys2Proof
end

