-- ==== Sys2Proof/Machine/State.lean ====
section
/-! DEFINITION. The state of the core (spec/10_state.md R10 to R27), the model's input and output lists beside it, the
reasons a step can stop, and the state after reset (R26, spec/70_reset_and_hazards.md R140). -/

namespace Sys2Proof.Machine

/-- The fields of `STATUS` (R12). Bits 7:4 and 31:12 always read 0, so they hold nothing; `Status.word` in Machine/Flags.lean
is the 32-bit value. -/
structure Status where
  /-- bit 0: the engine is carrying out an accepted command -/
  busy : Bool
  /-- bit 1: the most recently accepted command other than CLR has completed -/
  done : Bool
  /-- bit 2: an error has been recorded; sticky -/
  err : Bool
  /-- bit 3: `INNER` and `OUTER` hold a context produced by HKEY -/
  ctxv : Bool
  /-- bits 11:8: code of the first error recorded since `ERR` was last 0 -/
  errcode : BitVec 4
deriving DecidableEq, Repr

/-- What the compression engine works on during the 80 steps: the schedule buffer `S` and the working variables (R24, R63, R65). -/
structure Working where
  s : Block
  a : Word
  b : Word
  c : Word
  d : Word
  e : Word
deriving DecidableEq, Repr

/-- What the engine holds during a command beside the latch (R24). -/
structure Scratch where
  /-- `S[0..15]` and `a, b, c, d, e` -/
  working : Working
  /-- the step counter `t`, 0 to 80 -/
  t : Fin 81
  /-- the iteration counter `n` -/
  n : Word
  /-- the inner result `t1` an implementation holds between compressions -/
  t1 : Hash
  /-- the previous output `U_{n-1}` an implementation holds between compressions -/
  u : Hash
deriving DecidableEq, Repr

/-- The hidden engine state (R24), out of the host's reach. -/
structure Hidden where
  /-- `OP`: the opcode latched at command acceptance -/
  op : BitVec 8
  /-- everything else the engine holds -/
  scratch : Scratch
deriving DecidableEq, Repr

/-- The state: every register of R10 and R24, and three fields of the model's own (`agenda`, `replies`, `freeIndex`). -/
structure State where
  /-- `STATUS`, index 0x01 (R12) -/
  status : Status
  /-- `ITER`, index 0x02 (R13) -/
  iter : Word
  /-- `BLKIDX`, index 0x03 (R14) -/
  blkidx : Word
  /-- `SALTLEN`, index 0x04 (R15) -/
  saltlen : Word
  /-- `W[0..15]`, indices 0x10 to 0x1F (R17) -/
  w : Block
  /-- `H[0..4]`, indices 0x20 to 0x24 (R18) -/
  h : Hash
  /-- `INNER[0..4]`, indices 0x28 to 0x2C (R19) -/
  inner : Hash
  /-- `OUTER[0..4]`, indices 0x30 to 0x34 (R19) -/
  outer : Hash
  /-- `T[0..4]`, indices 0x38 to 0x3C (R20) -/
  t : Hash
  /-- `SALT[0..12]`, indices 0x40 to 0x4C (R16) -/
  salt : SaltBank
  /-- the hidden engine state (R24) -/
  hidden : Hidden
  /-- THE MODEL'S OWN: the moves of host, engine and environment still to come, the next one first (notes/assumptions/1.md) -/
  agenda : List Move
  /-- THE MODEL'S OWN: the values the host's reads have returned, the oldest first (R150; notes/assumptions/2.md) -/
  replies : List Word
  /-- THE MODEL'S OWN: how many free values of the hidden state have been drawn (notes/assumptions/4.md) -/
  freeIndex : Nat
deriving DecidableEq, Repr

/-- Why the machine stops with a fault. The spec's own six errors are NOT here: they are next states (R121). -/
inductive Fault where
  /-- Raised by the engine's turn (Machine/Port.lean, `complete`) in a state with `BUSY = 1` whose latch `OP` holds no command.
  Safe: R49 latches only the six opcodes, so no run from reset reaches such a state, and R50 gives it no case. -/
  | noLatchedCommand
deriving DecidableEq, Repr

/-- Why the model has no meaning for a command. -/
inductive Refusal where
  /-- Raised by an arm of `exec` whose command has no meaning yet. Safe: nothing is claimed of it. No arm raises it. -/
  | notModelled (mnemonic : String)
deriving DecidableEq, Repr

/-- What a step answers. -/
abbrev StepOutcome := Host.Outcome State Fault Refusal

/-- `STATUS = 0x00000000` (R26). -/
def Status.reset : Status :=
  { busy := false, done := false, err := false, ctxv := false, errcode := 0 }

/-- A register array of zeros (R26). -/
def zeros (n : Nat) : Vector Word n :=
  Vector.ofFn fun _ => 0

/-- The hidden state right after reset: the spec leaves it unspecified and unobservable, and a value has to be named
(DESIGN CHOICE: all zero, notes/assumptions/3.md). -/
def Hidden.reset : Hidden :=
  { op := 0
    scratch :=
      { working := { s := zeros 16, a := 0, b := 0, c := 0, d := 0, e := 0 }, t := 0, n := 0, t1 := zeros 5, u := zeros 5 } }

/-- The machine right after reset (R26, R140): every host-visible register zero, nothing of the host's still to come. -/
def State.reset : State :=
  { status := Status.reset
    iter := 0
    blkidx := 0
    saltlen := 0
    w := zeros 16
    h := zeros 5
    inner := zeros 5
    outer := zeros 5
    t := zeros 5
    salt := zeros 13
    hidden := Hidden.reset
    agenda := []
    replies := []
    freeIndex := 0 }

end Sys2Proof.Machine
end

