-- ==== Sys2Proof/Machine/Bits.lean ====
section
/-! DEFINITION. Rotation, byte order and component-wise operations (spec/00_scope.md R5 to R7, spec/20_memory.md R33). -/

namespace Sys2Proof.Machine

/-- `rotl(x, n)` for `1 ≤ n ≤ 31` (R6). -/
def rotl (x : Word) (n : Nat) : Word :=
  (x <<< n) ||| (x >>> (32 - n))

/-- Byte `j` of a word, `0 ≤ j ≤ 3`, the most significant first: bits `31 - 8·j` down to `24 - 8·j` (R7). -/
def wordByte (v : Word) (j : Nat) : Byte :=
  v.extractLsb' (24 - 8 * j) 8

/-- The word whose bytes are `b0 b1 b2 b3`, `b0` in bits 31:24 (R7). -/
def packWord (b0 b1 b2 b3 : Byte) : Word :=
  b0 ++ b1 ++ b2 ++ b3

/-- `ByteOf(X, k)`: byte `k` of the byte string a register array holds (R7, R33). Past the array's end it is 0, and no rule reads there
(DESIGN CHOICE, notes/assumptions/12.md). -/
def byteOf {n : Nat} (x : Vector Word n) (k : Nat) : Byte :=
  if _ : k / 4 < n then wordByte x[k / 4] (k % 4) else 0

/-- `BE32(v)` (R7). -/
def be32 (v : Word) : List Byte :=
  [wordByte v 0, wordByte v 1, wordByte v 2, wordByte v 3]

/-- Byte `j` of `BE64(v)`, `0 ≤ j ≤ 7` (R7). -/
def be64Byte (v : BitVec 64) (j : Nat) : Byte :=
  v.extractLsb' (56 - 8 * j) 8

/-- `BE64(v)` (R7). -/
def be64 (v : BitVec 64) : List Byte :=
  (List.range 8).map (be64Byte v)

/-- `WordsOfBytes(b)` for `len(b)` a multiple of 4 (R7). -/
def wordsOfBytes : List Byte → List Word
  | b0 :: b1 :: b2 :: b3 :: rest => packWord b0 b1 b2 b3 :: wordsOfBytes rest
  | _ => []

/-- `BytesOfWords(X)` (R7). -/
def bytesOfWords (x : List Word) : List Byte :=
  x.flatMap be32

/-- The 20 bytes of a hash state (R33). -/
def hashBytes (x : Hash) : List Byte :=
  bytesOfWords x.toList

/-- The word block whose byte `k` is `m k`, for `0 ≤ k < 64` (R7, R17). -/
def blockOfBytes (m : Nat → Byte) : Block :=
  Vector.ofFn fun j => packWord (m (4 * j)) (m (4 * j + 1)) (m (4 * j + 2)) (m (4 * j + 3))

/-- The word block of a 64-byte string (R7). -/
def blockOfList (b : List Byte) : Block :=
  blockOfBytes fun k => b.getD k 0

/-- `+` on five-word vectors: component-wise, modulo 2^32 (R5). -/
def addHash (x y : Hash) : Hash :=
  Vector.ofFn fun j => x[j] + y[j]

/-- `^` on five-word vectors: component-wise (R5). -/
def xorHash (x y : Hash) : Hash :=
  Vector.ofFn fun j => x[j] ^^^ y[j]

/-- `^` on sixteen-word vectors: component-wise (R5). -/
def xorBlock (x y : Block) : Block :=
  Vector.ofFn fun j => x[j] ^^^ y[j]

end Sys2Proof.Machine
end

