-- ==== Sys2Proof/Machine/Flags.lean ====
section
/-! DEFINITION. The flags of `STATUS`: its 32-bit value, and how acceptance, completion and errors change it
(spec/10_state.md R12, spec/30_encoding.md R49, R50, spec/60_exceptions.md R120, R121). No data-processing command sets a flag
from its result: the core has no zero, carry or overflow flag (R12). -/

namespace Sys2Proof.Machine

/-- `STATUS` as a 32-bit value (notes/assumptions/8.md): `ERRCODE` in bits 11:8, `CTXV`, `ERR`, `DONE`, `BUSY` in bits 3 to 0, zeros elsewhere (R12). -/
def Status.word (f : Status) : Word :=
  (0 : BitVec 20) ++ f.errcode ++ (0 : BitVec 4) ++ BitVec.ofBool f.ctxv ++ BitVec.ofBool f.err ++ BitVec.ofBool f.done
    ++ BitVec.ofBool f.busy

/-- The code of an error (R120). -/
def errorCode : CoreError → BitVec 4
  | .illcmd => 1
  | .noctx => 2
  | .iterz => 3
  | .saltlen => 4
  | .busywr => 5
  | .badwr => 6

/-- `raise E` on the flags: the first error since `ERR` was 0 is kept (R121). -/
def Status.raised (f : Status) (e : CoreError) : Status :=
  if f.err then f else { f with err := true, errcode := errorCode e }

/-- Command acceptance: `BUSY <- 1`, `DONE <- 0` (R49). -/
def Status.accepted (f : Status) : Status :=
  { f with busy := true, done := false }

/-- Completion of a command other than CLR: `BUSY <- 0`, `DONE <- 1` (R50). -/
def Status.completed (f : Status) : Status :=
  { f with busy := false, done := true }

end Sys2Proof.Machine
end

