-- ==== Sys2Proof/Machine/Operands.lean ====
section
/-! DEFINITION. The only addressing form there is: the absolute word index of a register slot (spec/20_memory.md R31, R32, R41;
the map is spec/10_state.md R10). -/

namespace Sys2Proof.Machine

/-- The register map: what each of the 128 indices names (R10, R22, R36). -/
def slotOf (idx : SlotIndex) : Slot :=
  let k := idx.toNat
  if k = 0x00 then .cmd
  else if k = 0x01 then .status
  else if k = 0x02 then .iter
  else if k = 0x03 then .blkidx
  else if k = 0x04 then .saltlen
  else if h : 0x10 ≤ k ∧ k ≤ 0x1F then .w ⟨k - 0x10, by omega⟩
  else if h : 0x20 ≤ k ∧ k ≤ 0x24 then .h ⟨k - 0x20, by omega⟩
  else if h : 0x28 ≤ k ∧ k ≤ 0x2C then .inner ⟨k - 0x28, by omega⟩
  else if h : 0x30 ≤ k ∧ k ≤ 0x34 then .outer ⟨k - 0x30, by omega⟩
  else if h : 0x38 ≤ k ∧ k ≤ 0x3C then .t ⟨k - 0x38, by omega⟩
  else if h : 0x40 ≤ k ∧ k ≤ 0x4C then .salt ⟨k - 0x40, by omega⟩
  else .reserved

/-- What a slot reads as while the core is idle: the register, or 0 for `CMD` and the reserved slots (R31). -/
def readSlot (s : State) : Slot → Word
  | .cmd => 0
  | .status => s.status.word
  | .iter => s.iter
  | .blkidx => s.blkidx
  | .saltlen => s.saltlen
  | .w j => s.w[j]
  | .h j => s.h[j]
  | .inner j => s.inner[j]
  | .outer j => s.outer[j]
  | .t j => s.t[j]
  | .salt j => s.salt[j]
  | .reserved => 0

/-- Storing a word in a data register the host may write: all 32 bits, that register only (R32).
`none` for the slots that store nothing: `CMD`, the read-only slots and the reserved ones. -/
def writeSlot (s : State) (v : Word) : Slot → Option State
  | .cmd => none
  | .status => none
  | .iter => some { s with iter := v }
  | .blkidx => some { s with blkidx := v }
  | .saltlen => some { s with saltlen := v }
  | .w j => some { s with w := s.w.set j v }
  | .h j => some { s with h := s.h.set j v }
  | .inner _ => none
  | .outer _ => none
  | .t _ => none
  | .salt j => some { s with salt := s.salt.set j v }
  | .reserved => none

end Sys2Proof.Machine
end

