-- ==== Sys2Proof/Machine/Ops.lean ====
section
/-! DEFINITION. The operations every command and every host transaction shares: recording an error (spec/60_exceptions.md R121)
and the way back from one (R125), command acceptance and completion (spec/30_encoding.md R49, R50). -/

namespace Sys2Proof.Machine

/-- What the engine holds at a time the spec leaves it open (R24, U11): free values.
Irreducible for the elaborator only: there is nothing to compute in it. -/
@[irreducible] def freeScratch (occasion : Nat) : Scratch :=
  { working :=
      { s := Vector.ofFn fun j => Config.freeWord occasion j
        a := Config.freeWord occasion 16
        b := Config.freeWord occasion 17
        c := Config.freeWord occasion 18
        d := Config.freeWord occasion 19
        e := Config.freeWord occasion 20 }
    t := Config.freeStepCounter occasion
    n := Config.freeWord occasion 21
    t1 := Vector.ofFn fun j => Config.freeWord occasion (22 + j)
    u := Vector.ofFn fun j => Config.freeWord occasion (27 + j) }

/-- The hidden state takes values nothing constrains beside the given latch `OP` (R24). -/
def disturbHidden (op : BitVec 8) (s : State) : State :=
  { s with hidden := { op := op, scratch := freeScratch s.freeIndex }, freeIndex := s.freeIndex + 1 }

/-- TAKING AN ERROR, `raise E`: `ERR` and `ERRCODE` are set unless an error is recorded already; nothing is saved anywhere,
no mode changes and control goes nowhere (R121). -/
def raiseError (e : CoreError) (s : State) : State :=
  { s with status := s.status.raised e }

/-- THE WAY BACK: every register takes its reset value (R26). It is the effect of CLR (R110) and of the reset event (R140),
the only ways back to `ERR = 0` (R125). The hidden state is discarded (R140), and what has yet to reach the core stays. -/
def clearRegisters (s : State) : State :=
  disturbHidden (Config.freeOpcode s.freeIndex)
    { State.reset with agenda := s.agenda, replies := s.replies, freeIndex := s.freeIndex }

/-- Acceptance of a command: `OP <- v[7:0]`, `BUSY <- 1`, `DONE <- 0` (R49). -/
def acceptCommand (i : Instr) (s : State) : State :=
  disturbHidden (opcodeOf i) { s with status := s.status.accepted }

/-- The end of the `Complete` step of a command other than CLR: `BUSY <- 0`, `DONE <- 1` (R50). What the latch `OP` holds between
commands is open (U11 of spec/93_implementation_defined.md). -/
def finishCommand (s : State) : State :=
  disturbHidden (Config.freeOpcode s.freeIndex) { s with status := s.status.completed }

/-- A command with no precondition of its own (R49). -/
def noCheck (_ : State) : Option CoreError :=
  none

/-- `Dispatch` of a legal command while the core is idle (R49): in the error state only CLR is accepted and any other command
is refused without effect; otherwise the command's own checks decide between an error and acceptance. -/
def dispatchCommand (i : Instr) (check : State → Option CoreError) (s : State) : State :=
  if s.status.err then
    if i = .clr then acceptCommand i s else s
  else
    match check s with
    | some e => raiseError e s
    | none => acceptCommand i s

/-- What a command does, from the two moments the spec gives it (R39, R49, R50): presented to an idle core it goes through
`Dispatch`, and while the engine is carrying it out its one step is `Complete`, whose effect on the registers is `effect`.
Written to a core that is busy with another command it is dropped with BUSYWR (R32); `step` never gets here for that write.
DESIGN CHOICE, safe: one function for the two moments (notes/assumptions/5.md). -/
def runCommand (i : Instr) (check : State → Option CoreError) (effect : State → State) (s : State) : StepOutcome :=
  if s.status.busy then
    if s.hidden.op = opcodeOf i then .next (effect s) else .next (raiseError .busywr s)
  else .next (dispatchCommand i check s)

end Sys2Proof.Machine
end

