-- ==== Sys2Proof/Machine/Compress.lean ====
section
/-! DEFINITION. The SHA-1 compression engine with its 16-word circular scheduler, multi-block SHA-1 as a function, and the
commands LDIV and COMP (spec/40_compress.md R60 to R71). -/

namespace Sys2Proof.Machine

/-- `IV`, the SHA-1 initial state (R60). -/
def sha1IV : Hash :=
  #v[0x67452301, 0xEFCDAB89, 0x98BADCFE, 0x10325476, 0xC3D2E1F0]

/-- `K(t)`, the round constants (R61). -/
def roundConstant (t : Nat) : Word :=
  if t ≤ 19 then 0x5A827999
  else if t ≤ 39 then 0x6ED9EBA1
  else if t ≤ 59 then 0x8F1BBCDC
  else 0xCA62C1D6

/-- `F(t, b, c, d)`, the round function (R62). -/
def roundFunction (t : Nat) (b c d : Word) : Word :=
  if t ≤ 19 then (b &&& c) ||| (~~~b &&& d)
  else if t ≤ 39 then b ^^^ c ^^^ d
  else if t ≤ 59 then (b &&& c) ||| (b &&& d) ||| (c &&& d)
  else b ^^^ c ^^^ d

/-- Slot `k mod 16` of the circular buffer (R63). -/
def circular (buf : Block) (k : Nat) : Word :=
  buf[k % 16]'(Nat.mod_lt k (by decide))

/-- What `SchedWord(t)` leaves in the buffer: from step 16 on slot `t mod 16` is overwritten, after the four reads (R63). -/
def scheduleStep (t : Nat) (buf : Block) : Block :=
  if 16 ≤ t then
    buf.set (t % 16)
      (rotl (circular buf (t - 3) ^^^ circular buf (t - 8) ^^^ circular buf (t - 14) ^^^ circular buf t) 1)
      (Nat.mod_lt t (by decide))
  else buf

/-- The start of a compression: `S[j] <- M[j]` and `(a, b, c, d, e) <- Hin` (R65). -/
def loadWorking (hin : Hash) (m : Block) : Working :=
  { s := m, a := hin[0], b := hin[1], c := hin[2], d := hin[3], e := hin[4] }

/-- Step `t` of a compression; all five variables are assigned together from the old values (R65). -/
def sha1Step (t : Nat) (x : Working) : Working :=
  let s := scheduleStep t x.s
  { s := s
    a := rotl x.a 5 + roundFunction t x.b x.c x.d + x.e + circular s t + roundConstant t
    b := x.a
    c := rotl x.b 30
    d := x.c
    e := x.d }

/-- The working state after steps `0, ..., t - 1` (R65, R9). -/
def sha1Steps : Nat → Working → Working
  | 0, x => x
  | t + 1, x => sha1Step t (sha1Steps t x)

/-- The working variables as a hash state. -/
def workingHash (x : Working) : Hash :=
  #v[x.a, x.b, x.c, x.d, x.e]

/-- `Compress(Hin, M)`: 80 steps, then the component-wise addition of the input state (R65, R66).
Irreducible for the elaborator only: a proof unfolds it by name, and nothing else tries to run its 80 steps on symbols. -/
@[irreducible] def compress (hin : Hash) (m : Block) : Hash :=
  addHash hin (workingHash (sha1Steps Config.rounds (loadWorking hin m)))

/-- The logical 80-word schedule, newest word first: `scheduleWords M t` lists `w_{t+15}, ..., w_0` (R64). -/
def scheduleWords (m : Block) : Nat → List Word
  | 0 => m.toList.reverse
  | t + 1 =>
    let ws := scheduleWords m t
    rotl (ws.getD 2 0 ^^^ ws.getD 7 0 ^^^ ws.getD 13 0 ^^^ ws.getD 15 0) 1 :: ws

/-- `w_t` of the logical schedule of a block, for `0 ≤ t ≤ 79` (R64). -/
def scheduleWord (m : Block) (t : Nat) : Word :=
  (scheduleWords m 64).reverse.getD t 0

/-- The working variables after steps `0, ..., t - 1` with the schedule taken from the 80 words instead of the circular buffer (R64, R67). -/
def stepsByWords (hin : Hash) (m : Block) : Nat → Hash
  | 0 => hin
  | t + 1 =>
    let x := stepsByWords hin m t
    #v[rotl x[0] 5 + roundFunction t x[1] x[2] x[3] + x[4] + scheduleWord m t + roundConstant t, x[0], rotl x[1] 30, x[2], x[3]]

/-- A second structure for the compression, with a full 80-word schedule; R67 requires it to equal `compress`. -/
def compressByWords (hin : Hash) (m : Block) : Hash :=
  addHash hin (stepsByWords hin m Config.rounds)

/-- `z = (55 - L) mod 64`, the number of zero bytes of the padding (R68). -/
def padZeros (len : Nat) : Nat :=
  (55 + 64 - len % 64) % 64

/-- `m || 0x80 || zero bytes || BE64(8·(before + L))`: the padding of the end of a hashed string of which `before` bytes, a
multiple of 64, have been absorbed already (R68 with `before = 0`, R90 with `before = 64`). A bit length of 2^64 or more is
taken modulo 2^64 (DESIGN CHOICE, notes/assumptions/12.md). -/
def padMessage (before : Nat) (m : List Byte) : List Byte :=
  m ++ 0x80 :: (List.replicate (padZeros m.length) 0 ++ be64 (BitVec.ofNat 64 (8 * (before + m.length))))

/-- Chaining over the first `r` 64-byte blocks of `p`: `h_{k+1} = Compress(h_k, WordsOfBytes(p_k))` (R68). -/
def absorbBlocks : Nat → Hash → List Byte → Hash
  | 0, h, _ => h
  | r + 1, h, p => absorbBlocks r (compress h (blockOfList (p.take Config.blockBytes))) (p.drop Config.blockBytes)

/-- Hashing `m` as the continuation of a string of which `before` bytes have been absorbed into the state `h` (R78, R84, R90). -/
def sha1From (h : Hash) (before : Nat) (m : List Byte) : Hash :=
  absorbBlocks ((padMessage before m).length / Config.blockBytes) h (padMessage before m)

/-- `Sha1(m)` for a byte string of any length (R68). -/
def sha1 (m : List Byte) : Hash :=
  sha1From sha1IV 0 m

/-- LDIV at `Complete`: `H <- IV` (R70). -/
def ldivEffect (s : State) : State :=
  finishCommand { s with h := sha1IV }

/-- LDIV (R70). -/
def execLdiv (s : State) : StepOutcome :=
  runCommand .ldiv noCheck ldivEffect s

/-- COMP at `Complete`: `H <- Compress(H, W)` (R71). -/
def compEffect (s : State) : State :=
  finishCommand { s with h := compress s.h s.w }

/-- COMP (R71). -/
def execComp (s : State) : StepOutcome :=
  runCommand .comp noCheck compEffect s

end Sys2Proof.Machine
end

