-- ==== Sys2Proof/Machine/HmacPrecompute.lean ====
section
/-! DEFINITION. The HMAC state precomputation and the commands KDIG and HKEY (spec/41_hmac_precompute.md R75 to R81), and the
HMAC value the precomputed states stand for (R84). -/

namespace Sys2Proof.Machine

/-- The 64 bytes of `KeyBlock(P)`: a password longer than 64 bytes is replaced by its digest, then zeros follow (R75). -/
def keyBytes (p : List Byte) : List Byte :=
  let q := if Config.blockBytes < p.length then hashBytes (sha1 p) else p
  q ++ List.replicate (Config.blockBytes - q.length) 0

/-- `KeyBlock(P)` (R75). -/
def keyBlock (p : List Byte) : Block :=
  blockOfList (keyBytes p)

/-- `IPAD`: every word `0x36363636` (R76). -/
def ipad : Block :=
  Vector.ofFn fun _ => 0x36363636

/-- `OPAD`: every word `0x5C5C5C5C` (R76). -/
def opad : Block :=
  Vector.ofFn fun _ => 0x5C5C5C5C

/-- `HmacCtx(K0)`: the inner and the outer state (R77). -/
def hmacCtx (k0 : Block) : Hash × Hash :=
  (compress sha1IV (xorBlock k0 ipad), compress sha1IV (xorBlock k0 opad))

/-- `MsgBlock(m)` for `len(m) ≤ 55`: the last block of a message hashed after 64 absorbed bytes (R84). -/
def msgBlock (m : List Byte) : Block :=
  blockOfList
    (m ++ 0x80 :: (List.replicate (Config.maxMessage - m.length) 0 ++ be64 (BitVec.ofNat 64 (8 * (64 + m.length)))))

/-- The standard two-pass construction, hash of `key^opad || hash(key^ipad || m)` (R84). -/
def hmacTwoPass (p m : List Byte) : Hash :=
  sha1 ((keyBytes p).map (· ^^^ 0x5c) ++ hashBytes (sha1 ((keyBytes p).map (· ^^^ 0x36) ++ m)))

/-- KDIG at `Complete`: the five words of `H`, then eleven zero words, into `W` (R80). -/
def kdigEffect (s : State) : State :=
  finishCommand { s with w := #v[s.h[0], s.h[1], s.h[2], s.h[3], s.h[4], 0, 0, 0, 0, 0, 0, 0, 0, 0, 0, 0] }

/-- KDIG (R80). -/
def execKdig (s : State) : StepOutcome :=
  runCommand .kdig noCheck kdigEffect s

/-- HKEY at `Complete`: `(INNER, OUTER) <- HmacCtx(W)` and `CTXV <- 1` (R81). -/
def hkeyEffect (s : State) : State :=
  finishCommand
    { s with inner := (hmacCtx s.w).1, outer := (hmacCtx s.w).2, status := { s.status with ctxv := true } }

/-- HKEY (R81). -/
def execHkey (s : State) : StepOutcome :=
  runCommand .hkey noCheck hkeyEffect s

end Sys2Proof.Machine
end

