-- ==== Sys2Proof/Machine/Pbkdf2.lean ====
section
/-! DEFINITION. The PBKDF2 iteration controller, the command PBLK and the value of a derived key
(spec/42_pbkdf2_iteration.md R90 to R101). -/

namespace Sys2Proof.Machine

/-- `m[k]` of `FirstBlock(SALT, L, i)`, for `0 ≤ k ≤ 63` and `L ≤ 51` (R91, with the length field of R90).
For a longer `L` it is R91's text read literally (DESIGN CHOICE, notes/assumptions/12.md). -/
def firstBlockByte (salt : SaltBank) (len : Nat) (i : Word) (k : Nat) : Byte :=
  if k < len then byteOf salt k
  else if k < len + 4 then wordByte i (k - len)
  else if k = len + 4 then 0x80
  else if k ≤ 55 then 0x00
  else be64Byte (BitVec.ofNat 64 (8 * (64 + len + 4))) (k - 56)

/-- `FirstBlock(SALT, L, i)`: the padded first message of block `i` (R91). -/
def firstBlock (salt : SaltBank) (len : Nat) (i : Word) : Block :=
  blockOfBytes (firstBlockByte salt len i)

/-- `DigestBlock(h)`: a 20-byte hash output padded to one block (R92). -/
def digestBlock (h : Hash) : Block :=
  #v[h[0], h[1], h[2], h[3], h[4], 0x80000000, 0, 0, 0, 0, 0, 0, 0, 0, 0, 0x000002A0]

/-- `Hmac20(inner, outer, B)`: one HMAC evaluation in two compressions (R93). -/
def hmac20 (inner outer : Hash) (b : Block) : Hash :=
  compress outer (digestBlock (compress inner b))

/-- The loop of `PbkdfBlock`, run `k` more times from `U` and `T` (R96). -/
def pbkdfLoop (inner outer : Hash) : Nat → Hash → Hash → Hash
  | 0, _, t => t
  | k + 1, u, t =>
    let u' := hmac20 inner outer (digestBlock u)
    pbkdfLoop inner outer k u' (xorHash t u')

/-- `PbkdfBlock(INNER, OUTER, SALT, L, i, c)`: `T` starts as `U_1`, then `n = 2..c` runs `c - 1` times (R94 to R96).
Irreducible for the elaborator only, like `compress`. The rule's ranges are `L ≤ 51` and `1 ≤ c ≤ 2^32 - 1`, and `ITER` has 32 bits;
past them, a greater count among them, the function has the value its text gives (DESIGN CHOICE, notes/assumptions/12.md), and no
run reads it there. -/
@[irreducible] def pbkdfBlock (inner outer : Hash) (salt : SaltBank) (len : Nat) (i : Word) (c : Nat) : Hash :=
  let u := hmac20 inner outer (firstBlock salt len i)
  pbkdfLoop inner outer (c - 1) u u

/-- `U_{k+1}`: the chain of HMAC outputs of one block, from `U_1` on (R94, R95). The rules run it to `U_c` with `c ≤ 2^32 - 1`, so to
`k = 2^32 - 2`; past that it goes on in the same way (DESIGN CHOICE, notes/assumptions/12.md). -/
def chainOutput (inner outer : Hash) (salt : SaltBank) (len : Nat) (i : Word) : Nat → Hash
  | 0 => hmac20 inner outer (firstBlock salt len i)
  | k + 1 => hmac20 inner outer (digestBlock (chainOutput inner outer salt len i k))

/-- The preconditions of PBLK, in their order: `CTXV = 1`, `ITER ≥ 1`, `SALTLEN ≤ 51` on all 32 bits (R49, R97). -/
def pblkCheck (s : State) : Option CoreError :=
  if !s.status.ctxv then some .noctx
  else if s.iter = 0 then some .iterz
  else if Config.maxSalt < s.saltlen.toNat then some .saltlen
  else none

/-- PBLK at `Complete`: `T <- PbkdfBlock(INNER, OUTER, SALT, SALTLEN, BLKIDX, ITER)` (R97). -/
def pblkEffect (s : State) : State :=
  finishCommand { s with t := pbkdfBlock s.inner s.outer s.salt s.saltlen.toNat s.blkidx s.iter.toNat }

/-- PBLK (R97). -/
def execPblk (s : State) : StepOutcome :=
  runCommand .pblk pblkCheck pblkEffect s

/-- The salt registers `LDSALT s` leaves: the salt bytes big-endian, then zeros (R53, R16), for the at most 51 bytes R53 and R101
admit. Of a longer string the bytes from index 52 on are dropped (DESIGN CHOICE, notes/assumptions/12.md). -/
def saltWords (salt : List Byte) : SaltBank :=
  Vector.ofFn fun j =>
    packWord (salt.getD (4 * j) 0) (salt.getD (4 * j + 1) 0) (salt.getD (4 * j + 2) 0) (salt.getD (4 * j + 3) 0)

/-- `T_i = PbkdfBlock(HmacCtx(KeyBlock(P)), s, len(s), i, c)` (R101), for `1 ≤ i ≤ 2^32 - 1`: `BLKIDX` has 32 bits.
A greater index is taken modulo 2^32 (DESIGN CHOICE, notes/assumptions/12.md). -/
def derivedBlock (call : DeriveCall) (i : Nat) : Hash :=
  pbkdfBlock (hmacCtx (keyBlock call.password)).1 (hmacCtx (keyBlock call.password)).2 (saltWords call.salt)
    call.salt.length (BitVec.ofNat 32 i) call.iterations

/-- The value of `DeriveKey`: `T_1 || T_2 || ... || T_numBlocks` truncated to `k` bytes, for a call that meets R101's preconditions.
A call that fails them the host rejects; what this function says of one is what its parts make of it: a block index modulo 2^32,
a salt cut to 52 bytes, a count of 0 as a count of 1, a count of 2^32 or more run to its end (DESIGN CHOICE, notes/assumptions/12.md). -/
def derivedKey (call : DeriveCall) : List Byte :=
  ((List.range call.numBlocks).flatMap fun j => hashBytes (derivedBlock call (j + 1))).take call.keyLength

end Sys2Proof.Machine
end

