-- ==== Sys2Proof/Machine/System.lean ====
section
/-! DEFINITION. The one system command, CLR (spec/43_system.md R110). -/

namespace Sys2Proof.Machine

/-- CLR at `Complete`: every register takes its reset value, so `BUSY`, `DONE` and `ERR` are 0 (R110, R50). -/
def clrEffect (s : State) : State :=
  clearRegisters s

/-- CLR (R110). -/
def execClr (s : State) : StepOutcome :=
  runCommand .clr noCheck clrEffect s

end Sys2Proof.Machine
end

