-- ==== Sys2Proof/Machine/Dispatch.lean ====
section
/-! DEFINITION. The meaning of every command of the opcode map (spec/30_encoding.md R47). -/

namespace Sys2Proof.Machine

def exec (i : Instr) (s : State) : Host.Outcome State Fault Refusal :=
  match i with
  | .ldiv => Sys2Proof.Machine.execLdiv s
  | .comp => Sys2Proof.Machine.execComp s
  | .kdig => Sys2Proof.Machine.execKdig s
  | .hkey => Sys2Proof.Machine.execHkey s
  | .pblk => Sys2Proof.Machine.execPblk s
  | .clr => Sys2Proof.Machine.execClr s

end Sys2Proof.Machine
end

