-- ==== Sys2Proof/Machine/Port.lean ====
section
/-! DEFINITION. The register port and the agents: the two host transactions (spec/20_memory.md R31, R32), `Dispatch` of a
written word (spec/30_encoding.md R49), the engine's `Complete` (R50) and the reset event (spec/70_reset_and_hazards.md R140). -/

namespace Sys2Proof.Machine

/-- `MemRead(idx, 4)`: `STATUS` always reads true, every other slot reads 0 while busy (R31). -/
def memRead (idx : SlotIndex) (s : State) : Word :=
  if idx = 0x01 then s.status.word
  else if s.status.busy then 0
  else readSlot s (slotOf idx)

/-- `Dispatch(v)` while `BUSY = 0` (R49). A word that is no command is refused silently in the error state and raises
ILLCMD otherwise; a command's own part of `Dispatch` is in its meaning. -/
def dispatchWord (v : Word) (s : State) : StepOutcome :=
  match decode v with
  | .ok i => exec i s
  | .error _ => .next (if s.status.err then s else raiseError .illcmd s)

/-- `MemWrite(idx, 4, v)` (R32). -/
def memWrite (idx : SlotIndex) (v : Word) (s : State) : StepOutcome :=
  if s.status.busy then .next (raiseError .busywr s)
  else if slotOf idx = .cmd then dispatchWord v s
  else
    match writeSlot s v (slotOf idx) with
    | some s' => .next s'
    | none => .next (raiseError .badwr s)

/-- The command held in the latch `OP` (R24, R49). -/
def latchedCommand (s : State) : Except DecodeError Instr :=
  decodeOpcode s.hidden.op

/-- The engine's turn (R50): `Complete` of the latched command if `BUSY = 1`, and no step at all if `BUSY = 0`
(notes/assumptions/7.md, notes/assumptions/11.md). -/
def complete (s : State) : StepOutcome :=
  if s.status.busy then
    match latchedCommand s with
    | .ok i => exec i s
    | .error _ => .fault .noLatchedCommand
  else .next s

/-- The host's read as a move: the value is returned to the host, no register changes (R31). -/
def hostRead (idx : SlotIndex) (s : State) : State :=
  { s with replies := s.replies ++ [memRead idx s] }

/-- One move of the environment or the engine. -/
def perform (m : Move) (s : State) : StepOutcome :=
  match m with
  | .read idx => .next (hostRead idx s)
  | .write idx v => memWrite idx v s
  | .engine => complete s
  | .reset => .next (clearRegisters s)

/-- The next move of the agenda. When the agenda is empty only the engine can move: it completes a command that is still
owed, and a state with `BUSY = 0` is quiescent (R149, R150). DESIGN CHOICE: notes/assumptions/1.md, notes/assumptions/6.md. -/
def advance (s : State) : StepOutcome :=
  match s.agenda with
  | [] => complete s
  | m :: rest => perform m { s with agenda := rest }

/-- The moves of a list, one after the other, on a state whose own agenda they do not touch. -/
def performAll : List Move → State → StepOutcome
  | [], s => .next s
  | m :: rest, s =>
    match perform m s with
    | .next s' => performAll rest s'
    | .fault r => .fault r
    | .refused r => .refused r

/-- Where the next command comes from: a host write of the command word to `CMD` (index 0x00), put before every other move. -/
def pushCommandWord (v : Word) (s : State) : State :=
  { s with agenda := .write 0x00 v :: s.agenda }

end Sys2Proof.Machine
end

