-- ==== Sys2Proof/Machine/Step.lean ====
section
/-! DEFINITION. The step: the next move of the agenda (spec/20_memory.md R37, spec/30_encoding.md R50, spec/70_reset_and_hazards.md
R150), and where the next command word is put. -/

namespace Sys2Proof.Machine

/-- One step of the core with its environment. -/
def step (s : State) : Host.Outcome State Fault Refusal :=
  advance s

/-- The state whose very next step is the host's write of the table word `w` to `CMD`. -/
def State.withFetchWord (s : State) (nbits w : Nat) : State :=
  pushCommandWord (BitVec.ofNat 32 (w % 2 ^ nbits)) s

end Sys2Proof.Machine
end

