-- ==== Sys2Proof/Machine/HostProcedures.lean ====
section
/-! DEFINITION. The host's notation and procedures as lists of moves: WAIT and the pseudo-instructions (spec/30_encoding.md R52,
R53), `HostSha1` (spec/40_compress.md R72), `HostKeyShort` and `HostKeyLong` (spec/41_hmac_precompute.md R82, R83), the HMAC
evaluation through COMP (R84) and Key Assembly, `HostDeriveKey` (spec/42_pbkdf2_iteration.md R101).
Every argument named `polls` says how many `STATUS` polls see `BUSY = 1` before the engine completes, command by command:
the completion time is unspecified (R50, spec/92_eei_decisions.md D23), so claims are for every choice of it
(notes/assumptions/6.md, notes/assumptions/15.md). -/

namespace Sys2Proof.Machine

/-- `WR X[j], v_j` for the words of a list, the first at register index `base` (R52). -/
def writeArray : Nat → List Word → List Move
  | _, [] => []
  | base, v :: vs => .write (BitVec.ofNat 7 base) v :: writeArray (base + 1) vs

/-- `RD X[0]` to `RD X[n-1]`, the first at register index `base` (R52). -/
def readArray : Nat → Nat → List Move
  | _, 0 => []
  | base, n + 1 => .read (BitVec.ofNat 7 base) :: readArray (base + 1) n

/-- `WAIT`: `STATUS` polls until one reads `BUSY = 0`; the engine completes after `polls` of them (R52, R38). -/
def waitMoves (polls : Nat) : List Move :=
  List.replicate polls (.read 0x01) ++ [.engine, .read 0x01]

/-- `cmd!`: the command, then `WAIT` (R53). -/
def cmdMoves (polls : Nat) (i : Instr) : List Move :=
  .write 0x00 (encode i) :: waitMoves polls

/-- `LDBLK b` for a 64-byte string: `WR W[j], WordsOfBytes(b)[j]` for `j = 0..15` (R53). Whatever `b` is, `W` is written, whole, and
nothing else: of a longer string the first 64 bytes, which R147 has in mind (DEDUCED, notes/assumptions/16.md), and for a missing
byte 0 (DESIGN CHOICE, notes/assumptions/12.md). -/
def ldblkMoves (b : List Byte) : List Move :=
  writeArray 0x10 (blockOfList b).toList

/-- `LDKEY p` for at most 64 bytes (R53). A longer `p` gets no zero byte and is cut by `LDBLK` (notes/assumptions/16.md). -/
def ldkeyMoves (p : List Byte) : List Move :=
  ldblkMoves (p ++ List.replicate (Config.blockBytes - p.length) 0)

/-- `LDSALT s` for at most 51 bytes: `WR SALT[j]` for `j = 0..12`, then `WR SALTLEN, len(s)` (R53). For a longer string it still
writes these fourteen registers (DESIGN CHOICE, notes/assumptions/12.md). -/
def ldsaltMoves (salt : List Byte) : List Move :=
  writeArray 0x40 (saltWords salt).toList
    ++ [.write 0x04 (BitVec.ofNat 32 salt.length)]

/-- `RDT` (R53). -/
def rdtMoves : List Move :=
  readArray 0x38 5

/-- `RDH` (R53). -/
def rdhMoves : List Move :=
  readArray 0x20 5

/-- The values of the last `n` reads. -/
def lastReplies (n : Nat) (s : State) : List Word :=
  s.replies.drop (s.replies.length - n)

/-- `LDBLK p_k`, `COMP!` for the first `r` blocks of `p` (R72). -/
def absorbMoves (polls : Nat → Nat) : Nat → List Byte → List Move
  | 0, _ => []
  | r + 1, p =>
    ldblkMoves (p.take Config.blockBytes) ++ cmdMoves (polls (r + 3)) .comp
      ++ absorbMoves polls r (p.drop Config.blockBytes)

/-- `HostSha1(m)` (R72). -/
def hostSha1Moves (polls : Nat → Nat) (m : List Byte) : List Move :=
  cmdMoves (polls 2) .ldiv
    ++ absorbMoves polls ((padMessage 0 m).length / Config.blockBytes) (padMessage 0 m)

/-- `HostKeyShort(P)` for `len(P) ≤ 64` (R82). On a longer password, the host's mistake of R83 and R147, it raises no error and
derives the context of the first 64 bytes (notes/assumptions/16.md). -/
def hostKeyShortMoves (polls : Nat → Nat) (p : List Byte) : List Move :=
  ldkeyMoves p ++ cmdMoves (polls 0) .hkey

/-- `HostKeyLong(P)` for `len(P) > 64` (R83). On a shorter password, the host's mistake of R83 and R147, it raises no error and
derives the context of the digest. -/
def hostKeyLongMoves (polls : Nat → Nat) (p : List Byte) : List Move :=
  hostSha1Moves polls p ++ cmdMoves (polls 1) .kdig ++ cmdMoves (polls 0) .hkey

/-- The key part of `HostDeriveKey`: short or long by the password's length (R101). -/
def hostKeyMoves (polls : Nat → Nat) (p : List Byte) : List Move :=
  if p.length ≤ Config.blockBytes then hostKeyShortMoves polls p else hostKeyLongMoves polls p

/-- One pass of the block loop of `HostDeriveKey`: `WR BLKIDX, i`, `PBLK!`, `RDT` (R101). -/
def blockMoves (polls : Nat) (i : Nat) : List Move :=
  .write 0x03 (BitVec.ofNat 32 i) :: (cmdMoves polls .pblk ++ rdtMoves)

/-- The block loop of `HostDeriveKey`, `count` blocks from block `i` on, `dk` being the bytes collected so far (R101).
`none` when the machine stops. -/
def hostBlocks (polls : Nat → Nat) : Nat → Nat → State → List Byte → Option (List Byte × State)
  | 0, _, s, dk => some (dk, s)
  | count + 1, i, s, dk =>
    match performAll (blockMoves (polls i) i) s with
    | .next s' => hostBlocks polls count (i + 1) s' (dk ++ bytesOfWords (lastReplies 5 s'))
    | .fault _ => none
    | .refused _ => none

/-- `HostDeriveKey(P, s, c, k)`: the derived key and the core's state after it (R101). `none` for a call the host rejects at
the boundary, and when the machine stops. -/
def hostDeriveKey (keyPolls blockPolls : Nat → Nat) (call : DeriveCall) (s : State) : Option (List Byte × State) :=
  if call.wellFormed then
    match performAll
        (hostKeyMoves keyPolls call.password ++ ldsaltMoves call.salt
          ++ [.write 0x02 (BitVec.ofNat 32 call.iterations)]) s with
    | .next s' =>
      (hostBlocks blockPolls call.numBlocks 1 s' []).map fun r => (r.1.take call.keyLength, r.2)
    | .fault _ => none
    | .refused _ => none
  else none

/-- HMAC over a message of at most 55 bytes through COMP alone, from a context the core holds (R84): `INNER` and `OUTER` are
read first, then each is written to `H` before the COMP that continues from it. -/
def hostHmac (polls : Nat → Nat) (m : List Byte) (s : State) : Option (List Word × State) :=
  match performAll (readArray 0x28 5 ++ readArray 0x30 5) s with
  | .next s1 =>
    match performAll
        (writeArray 0x20 ((lastReplies 10 s1).take 5) ++ writeArray 0x10 (msgBlock m).toList
          ++ cmdMoves (polls 0) .comp ++ rdhMoves) s1 with
    | .next s2 =>
      match performAll
          (writeArray 0x10 (lastReplies 5 s2 ++ [0x80000000, 0, 0, 0, 0, 0, 0, 0, 0, 0, 0x000002A0])
            ++ writeArray 0x20 ((lastReplies 10 s1).drop 5) ++ cmdMoves (polls 1) .comp ++ rdhMoves) s2 with
      | .next s3 => some (lastReplies 5 s3, s3)
      | .fault _ => none
      | .refused _ => none
    | .fault _ => none
    | .refused _ => none
  | .fault _ => none
  | .refused _ => none

end Sys2Proof.Machine
end

