-- ==== Sys2Proof/Safety.lean ====
section
/-! DEFINITION. What counts as a safe run: the invariant of the registers, the end of a run, and what a host can see
(spec/10_state.md R12, R24, R27, spec/70_reset_and_hazards.md R150, spec/93_implementation_defined.md U15). -/

namespace Sys2Proof.Machine

/-- The registers a command may have produced and the flags that go with them.
The step keeps every clause; each is a sentence of the spec about the whole machine. -/
structure State.Inv (s : State) : Prop where
  /-- `ERRCODE` is 0 when `ERR = 0`, and no recorded error has code 0 (R12, R120). -/
  errcode_zero : s.status.err = false ↔ s.status.errcode = 0
  /-- `ERRCODE` values 7 to 15 are never produced (R120, U15). -/
  errcode_le : s.status.errcode.toNat ≤ 6
  /-- `DONE` is cleared at acceptance and set at completion, never both flags at once (R12). -/
  busy_not_done : s.status.busy = true → s.status.done = false
  /-- While busy the latch holds one of the six opcodes (R49). -/
  busy_latched : s.status.busy = true → ∃ i, latchedCommand s = .ok i
  /-- While PBLK runs its preconditions hold (R97, R39). -/
  busy_pblk : s.status.busy = true → latchedCommand s = .ok .pblk → pblkCheck s = none
  /-- `CTXV = 1` means the context was produced by HKEY (R12, R19). -/
  context : s.status.ctxv = true → ∃ k0, (s.inner, s.outer) = hmacCtx k0
  /-- With no context derived since reset, `INNER`, `OUTER` and `T` still hold their reset zeros (R19, R20, R26). -/
  no_context : s.status.ctxv = false → s.inner = zeros 5 ∧ s.outer = zeros 5 ∧ s.t = zeros 5

/-- A state with nothing in flight (R150). -/
def State.Quiescent (s : State) : Prop :=
  s.agenda = [] ∧ s.status.busy = false

/-- A state in which a derivation can start: idle and with no error recorded (R142, R151). -/
def State.Ready (s : State) : Prop :=
  s.status.busy = false ∧ s.status.err = false

/-- The state with the hidden registers and the model's own counter blanked out: everything a host can ever see (R24, R150). -/
def State.visible (s : State) : State :=
  { s with hidden := Hidden.reset, freeIndex := 0 }

/-- Two states no host can tell apart: equal but for the hidden state, and running the same command if they are busy (R24). -/
def State.SameToHost (s s' : State) : Prop :=
  s.visible = s'.visible ∧ (s.status.busy = true → s.hidden.op = s'.hidden.op)

/-- The registers without the environment's move list, the returned values and the hidden state: what a rule's
"register" can mean. -/
def State.registers (s : State) : State :=
  { s.visible with agenda := [], replies := [] }

/-- The data registers: everything of `registers` but `STATUS` (R21). -/
def State.dataRegisters (s : State) : State :=
  { s.registers with status := Status.reset }

/-- A move of the host: a transaction on the port (R151). -/
def isHostMove : Move → Bool
  | .read _ => true
  | .write _ _ => true
  | .engine => false
  | .reset => false

/-- The indices of the registers a host write stores to: `ITER`, `BLKIDX`, `SALTLEN`, `W`, `H`, `SALT` (R10, R32). -/
def HostWritable (idx : SlotIndex) : Prop :=
  (0x02 ≤ idx.toNat ∧ idx.toNat ≤ 0x04) ∨ (0x10 ≤ idx.toNat ∧ idx.toNat ≤ 0x1F) ∨ (0x20 ≤ idx.toNat ∧ idx.toNat ≤ 0x24)
    ∨ (0x40 ≤ idx.toNat ∧ idx.toNat ≤ 0x4C)

/-- The reserved indices (R22, R36). -/
def ReservedIndex (idx : SlotIndex) : Prop :=
  (0x05 ≤ idx.toNat ∧ idx.toNat ≤ 0x0F) ∨ (0x25 ≤ idx.toNat ∧ idx.toNat ≤ 0x27) ∨ (0x2D ≤ idx.toNat ∧ idx.toNat ≤ 0x2F)
    ∨ (0x35 ≤ idx.toNat ∧ idx.toNat ≤ 0x37) ∨ (0x3D ≤ idx.toNat ∧ idx.toNat ≤ 0x3F) ∨ 0x4D ≤ idx.toNat

/-- The indices of the read-only registers `STATUS`, `INNER`, `OUTER`, `T` (R10). -/
def ReadOnlyIndex (idx : SlotIndex) : Prop :=
  idx.toNat = 0x01 ∨ (0x28 ≤ idx.toNat ∧ idx.toNat ≤ 0x2C) ∨ (0x30 ≤ idx.toNat ∧ idx.toNat ≤ 0x34)
    ∨ (0x38 ≤ idx.toNat ∧ idx.toNat ≤ 0x3C)

/-- The error a host write raises, by the fixed order of tests of R123, on the index as a number; `none` when it raises nothing. -/
def errorOfWrite (s : State) (idx : SlotIndex) (v : Word) : Option CoreError :=
  let k := idx.toNat
  if s.status.busy then some .busywr
  else if k = 0x01 ∨ (0x05 ≤ k ∧ k ≤ 0x0F) ∨ (0x25 ≤ k ∧ k ≤ 0x3F) ∨ 0x4D ≤ k then some .badwr
  else if k ≠ 0x00 then none
  else if s.status.err then none
  else if v.toNat = 0 ∨ 6 < v.toNat then some .illcmd
  else if v.toNat ≠ 5 then none
  else if s.status.ctxv = false then some .noctx
  else if s.iter.toNat = 0 then some .iterz
  else if 51 < s.saltlen.toNat then some .saltlen
  else none

/-- `t` is `s` after the acceptance of command `i`: `OP` latched, `BUSY = 1`, `DONE = 0`, every other register as it was (R49).
What else the hidden state holds is left open (R24). -/
def AcceptedFrom (i : Instr) (s t : State) : Prop :=
  ∃ hid k, hid.op = opcodeOf i ∧
    t = { s with status := { s.status with busy := true, done := false }, hidden := hid, freeIndex := k }

/-- `t` is `s` but for the hidden state, which is left open (R24). -/
def UpToHidden (s t : State) : Prop :=
  ∃ hid k, t = { s with hidden := hid, freeIndex := k }

/-- What each command leaves in the registers when it completes, written from the tables of R46 and R50. -/
def commandResult (i : Instr) (s : State) : State :=
  let s' := { s with status := { s.status with busy := false, done := true } }
  match i with
  | .ldiv => { s' with h := sha1IV }
  | .comp => { s' with h := compress s.h s.w }
  | .kdig => { s' with w := Vector.ofFn fun j => if h : j.val < 5 then s.h[j.val] else 0 }
  | .hkey =>
    { s' with
      inner := (hmacCtx s.w).1
      outer := (hmacCtx s.w).2
      status := { s'.status with ctxv := true } }
  | .pblk => { s' with t := pbkdfBlock s.inner s.outer s.salt s.saltlen.toNat s.blkidx s.iter.toNat }
  | .clr => { State.reset with agenda := s.agenda, replies := s.replies }

/-- The conditions under which a command is accepted by an idle core (R49). -/
def CommandEnabled (i : Instr) (s : State) : Prop :=
  s.status.busy = false ∧
    (s.status.err = false ∧ (i = .pblk → s.status.ctxv = true ∧ s.iter ≠ 0 ∧ s.saltlen.toNat ≤ 51) ∨ i = .clr)

/-- A safe run: `k` steps end in a state with no error recorded (R150: an end with `ERR = 1` is a faulted end). -/
def RunsSafely (s : State) (k : Nat) : Prop :=
  ∃ t, Host.Core.run Sys2Proof.core k s = .next t ∧ t.status.err = false

end Sys2Proof.Machine
end

