-- ==== Sys2Proof/Certificates/Slice0/Obligations.lean ====
section
/-! DEFINITION. The statements for the provers. Each docstring names the rule of spec/ it formalises; where a statement leaves
the hidden engine state open it holds for every value of it (spec/10_state.md R24). -/

open Sys2Proof Sys2Proof.Machine

/-! ### Encoding -/

/-- The opcode map is exactly the six rows of R47: a word decodes to a command if and only if it is that command's row. -/
def Obligations.OpcodeMapIsExactlySixRows : Prop :=
  ∀ (v : Word) (i : Instr),
    decode v = .ok i ↔
      (v = 0x00000001 ∧ i = .ldiv) ∨ (v = 0x00000002 ∧ i = .comp) ∨ (v = 0x00000003 ∧ i = .kdig)
        ∨ (v = 0x00000004 ∧ i = .hkey) ∨ (v = 0x00000005 ∧ i = .pblk) ∨ (v = 0x00000006 ∧ i = .clr)

/-- Decoding and encoding agree, each way: the encoder's word has the opcode in bits 7:0 under zeros, decodes to the command as a
word and as the table's row, and is the only word that does (R45, R47). -/
def Obligations.DecodeAndEncodeAgree : Prop :=
  ∀ i : Instr, i.wellFormed = true →
    decode (encode i) = .ok i ∧ decodeTableWord 32 (encode i).toNat = some i
      ∧ (encode i).extractLsb' 0 8 = opcodeOf i ∧ (encode i).extractLsb' 8 24 = 0
      ∧ (commandFields (encode i)).wellFormed = true ∧ ∀ v : Word, decode v = .ok i → v = encode i

/-- Sample words written out from the table of R47 and from the examples of R48 decode as the spec says. -/
def Obligations.SampleWordsDecodeAsTabled : Prop :=
  decode 0b00000000000000000000000000000001 = .ok .ldiv
    ∧ decode 0b00000000000000000000000000000100 = .ok .hkey
    ∧ decode 0b00000000000000000000000000000101 = .ok .pblk
    ∧ decode 0x00000000 = .error .reservedOpcode
    ∧ decode 0x00000007 = .error .reservedOpcode
    ∧ decode 0x00000102 = .error .nonzeroUpperBits
    ∧ decodeTableWord 32 6 = some .clr

/-- R48: a word other than the six, written to `CMD` of an idle core with no error recorded, raises ILLCMD and executes nothing. -/
def Obligations.IllegalCommandRaisesIllcmd : Prop :=
  ∀ (s : State) (v : Word), v.toNat = 0 ∨ 6 < v.toNat →
    (∃ e, decode v = .error e) ∧
    (s.status.busy = false → s.status.err = false →
      perform (.write 0x00 v) s = .next { s with status := { s.status with err := true, errcode := 1 } })

/-! ### The register port -/

/-- R31: a host read returns the value of the register map, 0 for `CMD`, the reserved slots and everything but `STATUS` while
busy, and changes nothing but the list of returned values, which is the model's own (notes/assumptions/2.md). -/
def Obligations.HostReadReturnsMappedRegister : Prop :=
  ∀ (s : State) (idx : SlotIndex),
    perform (.read idx) s = .next { s with replies := s.replies ++ [memRead idx s] }
      ∧ (idx.toNat = 0x01 → memRead idx s = s.status.word)
      ∧ (s.status.busy = true → idx.toNat ≠ 0x01 → memRead idx s = 0)
      ∧ (s.status.busy = false →
          (idx.toNat = 0x02 → memRead idx s = s.iter)
          ∧ (idx.toNat = 0x03 → memRead idx s = s.blkidx)
          ∧ (idx.toNat = 0x04 → memRead idx s = s.saltlen)
          ∧ (∀ j : Fin 16, idx.toNat = 0x10 + j → memRead idx s = s.w[j])
          ∧ (∀ j : Fin 5, idx.toNat = 0x20 + j → memRead idx s = s.h[j])
          ∧ (∀ j : Fin 5, idx.toNat = 0x28 + j → memRead idx s = s.inner[j])
          ∧ (∀ j : Fin 5, idx.toNat = 0x30 + j → memRead idx s = s.outer[j])
          ∧ (∀ j : Fin 5, idx.toNat = 0x38 + j → memRead idx s = s.t[j])
          ∧ (∀ j : Fin 13, idx.toNat = 0x40 + j → memRead idx s = s.salt[j])
          ∧ (idx.toNat = 0x00 ∨ ReservedIndex idx → memRead idx s = 0))

/-- R32: a host write is dropped with BUSYWR while busy, goes to `Dispatch` at index 0x00, stores all 32 bits in the mapped
register, and is dropped with BADWR at a read-only or reserved index. -/
def Obligations.HostWriteStoresOrRaises : Prop :=
  ∀ (s : State) (idx : SlotIndex) (v : Word),
    (s.status.busy = true → perform (.write idx v) s = .next (raiseError .busywr s))
      ∧ (s.status.busy = false →
          (idx.toNat = 0x00 → perform (.write idx v) s = dispatchWord v s)
          ∧ (idx.toNat = 0x02 → perform (.write idx v) s = .next { s with iter := v })
          ∧ (idx.toNat = 0x03 → perform (.write idx v) s = .next { s with blkidx := v })
          ∧ (idx.toNat = 0x04 → perform (.write idx v) s = .next { s with saltlen := v })
          ∧ (∀ j : Fin 16, idx.toNat = 0x10 + j → perform (.write idx v) s = .next { s with w := s.w.set j v })
          ∧ (∀ j : Fin 5, idx.toNat = 0x20 + j → perform (.write idx v) s = .next { s with h := s.h.set j v })
          ∧ (∀ j : Fin 13, idx.toNat = 0x40 + j → perform (.write idx v) s = .next { s with salt := s.salt.set j v })
          ∧ (ReadOnlyIndex idx ∨ ReservedIndex idx → perform (.write idx v) s = .next (raiseError .badwr s)))

/-- A word written to a data register of an idle core is what the next read of that index returns, and every other index
reads as before (R32, R35, R21: no register is an alias of another). -/
def Obligations.WrittenWordIsReadBackAndOthersKept : Prop :=
  ∀ (s : State) (idx : SlotIndex) (v : Word), s.status.busy = false → HostWritable idx →
    ∃ t, perform (.write idx v) s = .next t ∧ memRead idx t = v
      ∧ ∀ idx' : SlotIndex, idx' ≠ idx → memRead idx' t = memRead idx' s

/-- R49: `Dispatch(v)`, check by check in the order written. -/
def Obligations.DispatchChecksInOrder : Prop :=
  ∀ (s : State) (v : Word), s.status.busy = false →
    let out := perform (.write 0x00 v) s
    (s.status.err = true → v ≠ 0x00000006 → out = .next s)
      ∧ (s.status.err = true → v = 0x00000006 → ∃ t, out = .next t ∧ AcceptedFrom .clr s t)
      ∧ (s.status.err = false →
          ((v.extractLsb' 8 24 ≠ 0 ∨ (v.extractLsb' 0 8).toNat ∉ [1, 2, 3, 4, 5, 6]) → out = .next (raiseError .illcmd s))
          ∧ (v = 0x00000005 → s.status.ctxv = false → out = .next (raiseError .noctx s))
          ∧ (v = 0x00000005 → s.status.ctxv = true → s.iter = 0 → out = .next (raiseError .iterz s))
          ∧ (v = 0x00000005 → s.status.ctxv = true → s.iter ≠ 0 → 51 < s.saltlen.toNat →
              out = .next (raiseError .saltlen s))
          ∧ (∀ i, v = encode i → (i = .pblk → s.status.ctxv = true ∧ s.iter ≠ 0 ∧ s.saltlen.toNat ≤ 51) →
              ∃ t, out = .next t ∧ AcceptedFrom i s t))

/-! ### Flags and errors -/

/-- `STATUS` as a 32-bit value is `BUSY + 2·DONE + 4·ERR + 8·CTXV + 256·ERRCODE` (R12). -/
def Obligations.StatusWordIsSumOfFields : Prop :=
  ∀ f : Status,
    f.word.toNat = f.busy.toNat + 2 * f.done.toNat + 4 * f.err.toNat + 8 * f.ctxv.toNat + 256 * f.errcode.toNat

/-- R121: `raise E` sets `ERR` and the code of `E` when no error is recorded, and changes nothing otherwise; the codes are
those of R120. -/
def Obligations.RaiseKeepsTheFirstError : Prop :=
  (∀ (e : CoreError) (s : State),
    (s.status.err = false → raiseError e s = { s with status := { s.status with err := true, errcode := errorCode e } })
      ∧ (s.status.err = true → raiseError e s = s))
    ∧ errorCode .illcmd = 1 ∧ errorCode .noctx = 2 ∧ errorCode .iterz = 3 ∧ errorCode .saltlen = 4
    ∧ errorCode .busywr = 5 ∧ errorCode .badwr = 6

/-- R123: at most one error a host write, chosen by the first failing test of the fixed order; a write that raises none leaves
`ERR` and `ERRCODE` as they were. -/
def Obligations.FirstFailingTestChoosesTheError : Prop :=
  ∀ (s : State) (idx : SlotIndex) (v : Word),
    match errorOfWrite s idx v with
    | some e => perform (.write idx v) s = .next (raiseError e s)
    | none =>
      ∃ t, perform (.write idx v) s = .next t ∧ t.status.err = s.status.err ∧ t.status.errcode = s.status.errcode

/-- R125: the only ways back to `ERR = 0` are the completion of CLR and reset, both of which clear every register; any other
move keeps `ERR` and the first error's code. Among these moves is an engine's turn in an idle core, which the spec does not have and
which changes nothing by the model's choice (notes/assumptions/11.md). -/
def Obligations.ErrorStaysUntilClrOrReset : Prop :=
  ∀ (s t : State) (m : Move), s.status.err = true → perform m s = .next t →
    let cleared := m = .reset ∨ (m = .engine ∧ s.status.busy = true ∧ s.hidden.op = 0x06)
    (cleared → t.status.err = false ∧ t.status.errcode = 0 ∧ t.registers = State.reset.registers)
      ∧ (¬cleared → t.status.err = true ∧ t.status.errcode = s.status.errcode)

/-- R124: in the error state every `CMD` write but exactly CLR changes nothing at all, data writes are carried out, the other
writes change nothing, reads behave as always, and a command that is running still completes. -/
def Obligations.ErrorStateRefusesCommands : Prop :=
  ∀ s : State, s.status.err = true →
    (s.status.busy = false →
        (∀ v : Word, v ≠ 0x00000006 → perform (.write 0x00 v) s = .next s)
          ∧ (∀ (idx : SlotIndex) (v : Word), HostWritable idx →
              ∃ t, perform (.write idx v) s = .next t ∧ memRead idx t = v ∧ t.status = s.status))
      ∧ (∀ (idx : SlotIndex) (v : Word), ReadOnlyIndex idx ∨ ReservedIndex idx → perform (.write idx v) s = .next s)
      ∧ (∀ idx : SlotIndex, perform (.read idx) s = .next { s with replies := s.replies ++ [memRead idx s] })
      ∧ (∀ i : Instr, s.status.busy = true → s.hidden.op = opcodeOf i →
          ∃ t, perform .engine s = .next t ∧ t.registers = (commandResult i s).registers)

/-- R122: host transactions while a command runs are dropped and do not disturb it: its completion afterwards leaves the
registers that completion at once would have left, `DONE` and `CTXV` included. -/
def Obligations.BusyTransactionsDoNotDisturbTheCommand : Prop :=
  ∀ (s t : State) (ms : List Move), s.status.busy = true → (∀ m ∈ ms, isHostMove m = true) → complete s = .next t →
    ∃ t', performAll (ms ++ [.engine]) s = .next t' ∧ t'.dataRegisters = t.dataRegisters
      ∧ t'.status.busy = false ∧ t'.status.done = t.status.done ∧ t'.status.ctxv = t.status.ctxv

/-! ### The commands: each when it is presented to an idle core, in the error state, and at its `Complete` -/

/-- R70: LDIV. -/
def Obligations.LdivLoadsTheInitialState : Prop :=
  decode 0x00000001 = .ok .ldiv ∧ ∀ s : State,
    (s.status.busy = false → s.status.err = false → ∃ t, exec .ldiv s = .next t ∧ AcceptedFrom .ldiv s t)
      ∧ (s.status.busy = false → s.status.err = true → exec .ldiv s = .next s)
      ∧ (s.status.busy = true → perform (.write 0x00 0x00000001) s = .next (raiseError .busywr s))
      ∧ (s.status.busy = true → s.hidden.op = 0x01 →
          ∃ t, exec .ldiv s = .next t ∧
            UpToHidden
              { s with
                h := #v[0x67452301, 0xEFCDAB89, 0x98BADCFE, 0x10325476, 0xC3D2E1F0]
                status := { s.status with busy := false, done := true } } t)

/-- R71: COMP. -/
def Obligations.CompCompressesTheBlock : Prop :=
  decode 0x00000002 = .ok .comp ∧ ∀ s : State,
    (s.status.busy = false → s.status.err = false → ∃ t, exec .comp s = .next t ∧ AcceptedFrom .comp s t)
      ∧ (s.status.busy = false → s.status.err = true → exec .comp s = .next s)
      ∧ (s.status.busy = true → perform (.write 0x00 0x00000002) s = .next (raiseError .busywr s))
      ∧ (s.status.busy = true → s.hidden.op = 0x02 →
          ∃ t, exec .comp s = .next t ∧
            UpToHidden { s with h := compress s.h s.w, status := { s.status with busy := false, done := true } } t)

/-- R80: KDIG. -/
def Obligations.KdigMakesKeyBlockFromDigest : Prop :=
  decode 0x00000003 = .ok .kdig ∧ ∀ s : State,
    (s.status.busy = false → s.status.err = false → ∃ t, exec .kdig s = .next t ∧ AcceptedFrom .kdig s t)
      ∧ (s.status.busy = false → s.status.err = true → exec .kdig s = .next s)
      ∧ (s.status.busy = true → perform (.write 0x00 0x00000003) s = .next (raiseError .busywr s))
      ∧ (s.status.busy = true → s.hidden.op = 0x03 →
          ∃ t, exec .kdig s = .next t
            ∧ (∀ j : Fin 5, t.w[j.val] = s.h[j.val]) ∧ (∀ j : Fin 16, 5 ≤ j.val → t.w[j] = 0)
            ∧ UpToHidden { s with w := t.w, status := { s.status with busy := false, done := true } } t)

/-- R81: HKEY. -/
def Obligations.HkeyDerivesTheContext : Prop :=
  decode 0x00000004 = .ok .hkey ∧ ∀ s : State,
    (s.status.busy = false → s.status.err = false → ∃ t, exec .hkey s = .next t ∧ AcceptedFrom .hkey s t)
      ∧ (s.status.busy = false → s.status.err = true → exec .hkey s = .next s)
      ∧ (s.status.busy = true → perform (.write 0x00 0x00000004) s = .next (raiseError .busywr s))
      ∧ (s.status.busy = true → s.hidden.op = 0x04 →
          ∃ t, exec .hkey s = .next t ∧
            UpToHidden
              { s with
                inner := compress sha1IV (xorBlock s.w (Vector.ofFn fun _ => 0x36363636))
                outer := compress sha1IV (xorBlock s.w (Vector.ofFn fun _ => 0x5C5C5C5C))
                status := { s.status with busy := false, done := true, ctxv := true } } t)

/-- R97: PBLK, its three preconditions in order among the clauses. -/
def Obligations.PblkComputesOneOutputBlock : Prop :=
  decode 0x00000005 = .ok .pblk ∧ ∀ s : State,
    (s.status.busy = false → s.status.err = true → exec .pblk s = .next s)
      ∧ (s.status.busy = false → s.status.err = false →
          (s.status.ctxv = false → exec .pblk s = .next (raiseError .noctx s))
          ∧ (s.status.ctxv = true → s.iter = 0 → exec .pblk s = .next (raiseError .iterz s))
          ∧ (s.status.ctxv = true → s.iter ≠ 0 → 51 < s.saltlen.toNat → exec .pblk s = .next (raiseError .saltlen s))
          ∧ (s.status.ctxv = true → s.iter ≠ 0 → s.saltlen.toNat ≤ 51 →
              ∃ t, exec .pblk s = .next t ∧ AcceptedFrom .pblk s t))
      ∧ (s.status.busy = true → perform (.write 0x00 0x00000005) s = .next (raiseError .busywr s))
      ∧ (s.status.busy = true → s.hidden.op = 0x05 →
          ∃ t, exec .pblk s = .next t ∧
            UpToHidden
              { s with
                t := pbkdfBlock s.inner s.outer s.salt s.saltlen.toNat s.blkidx s.iter.toNat
                status := { s.status with busy := false, done := true } } t)

/-- CLR, accepted in the error state too, returns every register to its reset value (R110). That it leaves the agenda and the returned
values is the model's choice and no rule's (notes/assumptions/1.md, notes/assumptions/2.md). -/
def Obligations.ClrReturnsEveryRegisterToReset : Prop :=
  decode 0x00000006 = .ok .clr ∧ ∀ s : State,
    (s.status.busy = false → ∃ t, exec .clr s = .next t ∧ AcceptedFrom .clr s t)
      ∧ (s.status.busy = false →
          perform (.write 0x00 0x00000106) s = .next (if s.status.err then s else raiseError .illcmd s))
      ∧ (s.status.busy = true → perform (.write 0x00 0x00000006) s = .next (raiseError .busywr s))
      ∧ (s.status.busy = true → s.hidden.op = 0x06 →
          ∃ t, exec .clr s = .next t ∧ t.registers = State.reset.registers ∧ t.status.word = 0
            ∧ t.agenda = s.agenda ∧ t.replies = s.replies)

/-- A command followed by WAIT, whatever the number of polls before the engine completes: the polls return `BUSY = 1` words,
the last returns the final `STATUS`, and the registers are the table's result of the command (R46, R50, R53). The agenda, the list
of returned values and the number of polls are the model's (notes/assumptions/1.md, 2.md, 6.md). -/
def Obligations.CommandThenWaitLeavesItsResult : Prop :=
  ∀ (i : Instr) (polls : Nat) (s : State), CommandEnabled i s →
    ∃ t, performAll (cmdMoves polls i) s = .next t
      ∧ t.registers = (commandResult i s).registers
      ∧ t.replies = s.replies ++ List.replicate polls ({ s.status with busy := true, done := false } : Status).word
          ++ [(commandResult i s).status.word]
      ∧ t.agenda = s.agenda

/-! ### Reset, the step and the whole machine -/

/-- Reset at any time, idle or busy, gives the reset state's registers at once (R140, R141). That it leaves the agenda and the
returned values is the model's choice and no rule's (notes/assumptions/1.md, notes/assumptions/2.md). -/
def Obligations.ResetEventClearsEveryRegister : Prop :=
  ∀ s : State, ∃ t, perform .reset s = .next t ∧ t.registers = State.reset.registers
    ∧ t.agenda = s.agenda ∧ t.replies = s.replies

/-- R26: every register of the reset state, register by register, and the same registers after the reset event and after the
completion of CLR. -/
def Obligations.ResetAndClrLeaveEveryRegisterZero : Prop :=
  (State.reset.status.word = 0 ∧ State.reset.iter = 0 ∧ State.reset.blkidx = 0 ∧ State.reset.saltlen = 0
      ∧ (∀ j : Fin 13, State.reset.salt[j] = 0) ∧ (∀ j : Fin 16, State.reset.w[j] = 0) ∧ (∀ j : Fin 5, State.reset.h[j] = 0)
      ∧ (∀ j : Fin 5, State.reset.inner[j] = 0) ∧ (∀ j : Fin 5, State.reset.outer[j] = 0)
      ∧ (∀ j : Fin 5, State.reset.t[j] = 0) ∧ (∀ idx : SlotIndex, memRead idx State.reset = 0))
    ∧ (∀ s : State, ∃ t, perform .reset s = .next t ∧ t.registers = State.reset.registers)
    ∧ (∀ s : State, s.status.busy = true → s.hidden.op = 0x06 →
        ∃ t, perform .engine s = .next t ∧ t.registers = State.reset.registers)

/-- A step runs the decoded command: a command word the host is about to write to an idle core's `CMD`, and the latched command
when the engine has its turn. The agenda, and the engine's turn when it is empty, are the model's choice
(notes/assumptions/1.md). -/
def Obligations.StepRunsTheDecodedCommand : Prop :=
  (∀ (s : State) (v : Word) (rest : List Move) (i : Instr),
    s.status.busy = false → s.agenda = .write 0x00 v :: rest → decode v = .ok i → i.wellFormed = true →
      step s = exec i { s with agenda := rest })
    ∧ (∀ (s : State) (rest : List Move) (i : Instr),
        s.status.busy = true → (s.agenda = .engine :: rest ∨ s.agenda = [] ∧ rest = []) → latchedCommand s = .ok i →
          step s = exec i { s with agenda := rest })
    ∧ (∀ (s : State) (i : Instr), s.status.busy = false → step (s.withFetchWord 32 (encode i).toNat) = exec i s)

/-- Steps follow the agenda: running as many steps as the agenda is long makes its moves in order (R37, R150). The agenda is the
model's choice (notes/assumptions/1.md). -/
def Obligations.StepsMakeTheAgendasMovesInOrder : Prop :=
  ∀ (ms : List Move) (s t : State), performAll ms { s with agenda := [] } = .next t →
    Host.Core.run Sys2Proof.core ms.length { s with agenda := ms } = .next t

/-- The reset state meets the invariant of the registers. -/
def Obligations.ResetStateMeetsInvariant : Prop :=
  State.reset.Inv

/-- The invariant of the registers is kept by every step, and a step from a state that meets it never stops. The agenda, and the
engine's turn when it is empty, are the model's choice (notes/assumptions/1.md); so is it that an idle core's step, where R50 and R150
give the engine none, answers the same state (notes/assumptions/11.md). -/
def Obligations.StepKeepsInvariantAndNeverStops : Prop :=
  ∀ s : State, s.Inv → ∃ t, step s = .next t ∧ t.Inv

/-- A run ends quiescent (R149, R150): from a state that meets the invariant, one step more than the agenda has moves ends with an
empty agenda and `BUSY = 0`, whatever the interleaving and with resets among the moves too. What a command has then written is said
by `AcceptedCommandCompletesUnlessReset`. The agenda and the engine's turn when it is empty are the model's choice
(notes/assumptions/1.md), and so is the idle core's step that answers the same state (notes/assumptions/11.md). -/
def Obligations.RunEndsQuiescent : Prop :=
  ∀ s : State, s.Inv → ∃ t, Host.Core.run Sys2Proof.core (s.agenda.length + 1) s = .next t ∧ t.Quiescent

/-- R27: while a command runs, no host transaction changes any data register or any flag but `ERR` and `ERRCODE`, and every
read but `STATUS` returns 0; at completion all of the command's writes appear together with `BUSY = 0`. -/
def Obligations.NothingPartialIsSeenWhileBusy : Prop :=
  ∀ s : State, s.status.busy = true →
    (∀ m : Move, isHostMove m = true →
        ∃ t, perform m s = .next t ∧ t.dataRegisters = s.dataRegisters ∧ t.hidden = s.hidden
          ∧ t.status.busy = true ∧ t.status.done = s.status.done ∧ t.status.ctxv = s.status.ctxv
          ∧ ∀ idx : SlotIndex, idx.toNat ≠ 0x01 → memRead idx t = 0)
      ∧ (∀ i : Instr, s.hidden.op = opcodeOf i →
          ∃ t, perform .engine s = .next t ∧ t.registers = (commandResult i s).registers ∧ t.status.busy = false)

/-- R19: the context and `CTXV` change only at the completion of HKEY or CLR and at reset. For an engine's turn in an idle core this
is the model's choice (notes/assumptions/11.md). -/
def Obligations.OnlyHkeyClrAndResetChangeTheContext : Prop :=
  ∀ (s t : State) (m : Move), perform m s = .next t →
    (t.inner = s.inner ∧ t.outer = s.outer ∧ t.status.ctxv = s.status.ctxv)
      ∨ m = .reset
      ∨ (m = .engine ∧ s.status.busy = true ∧ (s.hidden.op = 0x04 ∨ s.hidden.op = 0x06))

/-- The frame of the engine's turn: which command may change which register (R10's column "Written by engine on", R46, R50).
The spec gives the engine no step while `BUSY = 0`: that its turn in an idle core answers the same state is the model's choice
(DESIGN CHOICE, notes/assumptions/11.md), and so is that its turn leaves the agenda and the returned values, which are the model's own
fields (DESIGN CHOICE, notes/assumptions/1.md, notes/assumptions/2.md). -/
def Obligations.EngineWritesOnlyTheTabledRegisters : Prop :=
  ∀ s t : State, perform .engine s = .next t →
    (s.status.busy = false → t = s)
      ∧ (s.hidden.op ≠ 0x06 →
          t.iter = s.iter ∧ t.blkidx = s.blkidx ∧ t.saltlen = s.saltlen ∧ t.salt = s.salt
            ∧ t.status.err = s.status.err ∧ t.status.errcode = s.status.errcode
            ∧ (s.hidden.op ≠ 0x03 → t.w = s.w)
            ∧ (s.hidden.op ≠ 0x01 → s.hidden.op ≠ 0x02 → t.h = s.h)
            ∧ (s.hidden.op ≠ 0x04 → t.inner = s.inner ∧ t.outer = s.outer ∧ t.status.ctxv = s.status.ctxv)
            ∧ (s.hidden.op ≠ 0x05 → t.t = s.t))
      ∧ t.agenda = s.agenda ∧ t.replies = s.replies

/-- R24: nothing the host can see ever depends on the hidden state: two states that differ only there step to two states that
differ only there. The agenda and the idle core's step that answers the same state are the model's choice (notes/assumptions/1.md,
notes/assumptions/11.md). -/
def Obligations.HiddenStateIsUnobservable : Prop :=
  ∀ s s' : State, s.SameToHost s' →
    (∀ t, step s = .next t → ∃ t', step s' = .next t' ∧ t.SameToHost t')
      ∧ (∀ r, step s = .fault r → step s' = .fault r)

/-! ### The compression engine -/

/-- R6: left rotation moves bit `k` to bit `(k + n) mod 32`. -/
def Obligations.RotlMovesEachBit : Prop :=
  ∀ (x : Word) (n k : Nat), 1 ≤ n → n ≤ 31 → k < 32 →
    (rotl x n).getLsbD ((k + n) % 32) = x.getLsbD k
      ∧ (rotl x n).toNat = (x.toNat * 2 ^ n ||| x.toNat / 2 ^ (32 - n)) % 2 ^ 32

/-- Words and bytes correspond big-endian, each way (R7): every conversion is given its order by name, `WordsOfBytes` by R7's own sum,
`BE32` and `BE64` by the bit ranges of their bytes from the most significant on, `BytesOfWords` as the concatenation of `BE32`, and
`ByteOf` by R7's bit range; and the two directions are inverse. The sum is said for every
rest, also where the length is no multiple of 4, which R7 leaves out and notes/assumptions/12.md decides (DESIGN CHOICE). -/
def Obligations.BytesAndWordsCorrespondBigEndian : Prop :=
  (∀ b0 b1 b2 b3 : Byte,
      (packWord b0 b1 b2 b3).toNat = b0.toNat * 2 ^ 24 + b1.toNat * 2 ^ 16 + b2.toNat * 2 ^ 8 + b3.toNat)
    ∧ (∀ x : List Word, wordsOfBytes (bytesOfWords x) = x)
    ∧ (∀ b : List Byte, b.length % 4 = 0 → bytesOfWords (wordsOfBytes b) = b)
    ∧ (∀ (n : Nat) (x : Vector Word n) (k : Nat), k < 4 * n → (bytesOfWords x.toList)[k]? = some (byteOf x k))
    ∧ (∀ v : Word, be32 v = bytesOfWords [v])
    ∧ (∀ v : BitVec 64, be64 v = bytesOfWords [v.extractLsb' 32 32, v.extractLsb' 0 32])
    ∧ wordsOfBytes [] = []
    ∧ (∀ (b0 b1 b2 b3 : Byte) (rest : List Byte), ∃ x : Word,
        wordsOfBytes (b0 :: b1 :: b2 :: b3 :: rest) = x :: wordsOfBytes rest
          ∧ x.toNat = b0.toNat * 2 ^ 24 + b1.toNat * 2 ^ 16 + b2.toNat * 2 ^ 8 + b3.toNat
          ∧ x.extractLsb' 24 8 = b0)
    ∧ bytesOfWords [] = []
    ∧ (∀ (v : Word) (vs : List Word), bytesOfWords (v :: vs) = be32 v ++ bytesOfWords vs)
    ∧ (∀ v : Word, be32 v = [v.extractLsb' 24 8, v.extractLsb' 16 8, v.extractLsb' 8 8, v.extractLsb' 0 8])
    ∧ (∀ v : BitVec 64,
        be64 v = [v.extractLsb' 56 8, v.extractLsb' 48 8, v.extractLsb' 40 8, v.extractLsb' 32 8,
          v.extractLsb' 24 8, v.extractLsb' 16 8, v.extractLsb' 8 8, v.extractLsb' 0 8])
    ∧ (∀ (n : Nat) (x : Vector Word n) (k : Nat) (_ : k < 4 * n),
        byteOf x k = (x[k / 4]'(by omega)).extractLsb' (24 - 8 * (k % 4)) 8)

/-- R62: the round function in its three forms, with the equal forms and the corner values the rule gives, each
a bitwise function. -/
def Obligations.RoundFunctionForms : Prop :=
  ∀ (t : Nat) (b c d : Word), t ≤ 79 →
    (t ≤ 19 →
        roundFunction t b c d = (b &&& c) ||| (~~~b &&& d)
          ∧ roundFunction t b c d = d ^^^ (b &&& (c ^^^ d))
          ∧ roundFunction t b c d = (b &&& c) ^^^ (~~~b &&& d)
          ∧ roundFunction t b c d = (b &&& c) + (~~~b &&& d))
      ∧ (20 ≤ t ∧ t ≤ 39 ∨ 60 ≤ t → roundFunction t b c d = b ^^^ c ^^^ d)
      ∧ (40 ≤ t → t ≤ 59 →
          roundFunction t b c d = (b &&& c) ||| (b &&& d) ||| (c &&& d)
            ∧ roundFunction t b c d = (b &&& c) ||| (d &&& (b ||| c)))
      ∧ roundFunction 0 0xFFFFFFFF c d = c ∧ roundFunction 0 0 c d = d ∧ roundFunction 40 b b d = b
      ∧ (∀ (b' c' d' : Word) (k : Nat),
          b.getLsbD k = b'.getLsbD k → c.getLsbD k = c'.getLsbD k → d.getLsbD k = d'.getLsbD k →
            (roundFunction t b c d).getLsbD k = (roundFunction t b' c' d').getLsbD k)

/-- R61: the round constants of the four groups of steps. -/
def Obligations.RoundConstantsOfTheFourGroups : Prop :=
  ∀ t : Nat, t ≤ 79 →
    (t ≤ 19 → roundConstant t = 0x5A827999) ∧ (20 ≤ t → t ≤ 39 → roundConstant t = 0x6ED9EBA1)
      ∧ (40 ≤ t → t ≤ 59 → roundConstant t = 0x8F1BBCDC) ∧ (60 ≤ t → roundConstant t = 0xCA62C1D6)

/-- R64: the 16-slot circular buffer delivers exactly the words of the logical 80-word schedule, and after step 79 it holds
`w_64, ..., w_79` (R63). -/
def Obligations.CircularBufferDeliversTheLogicalSchedule : Prop :=
  ∀ (hin : Hash) (m : Block),
    (∀ t : Fin 16, scheduleWord m t = m[t])
      ∧ (∀ t : Nat, 16 ≤ t → t ≤ 79 →
          scheduleWord m t =
            rotl (scheduleWord m (t - 3) ^^^ scheduleWord m (t - 8) ^^^ scheduleWord m (t - 14) ^^^ scheduleWord m (t - 16)) 1)
      ∧ (∀ t : Nat, t ≤ 79 → circular (scheduleStep t (sha1Steps t (loadWorking hin m)).s) t = scheduleWord m t)
      ∧ (∀ j : Fin 16, (sha1Steps 80 (loadWorking hin m)).s[j] = scheduleWord m (64 + j))

/-- R67: the compression with a full 80-word schedule gives the same output for all states and blocks. -/
def Obligations.FullScheduleVariantIsBitIdentical : Prop :=
  ∀ (hin : Hash) (m : Block), compressByWords hin m = compress hin m

/-- R65: one step assigns the five variables together from the old values, and the output is the input state plus the final
variables, component-wise; with the rule's corner case and its worked example. -/
def Obligations.CompressFollowsTheStepUpdate : Prop :=
  compress (Vector.ofFn fun _ => 0) (Vector.ofFn fun _ => 0)
      = #v[0x9e1547ed, 0x57ec91c2, 0x30fa8bc8, 0xc7785a54, 0xa7efa5e3]
    ∧ compress sha1IV #v[0x61626380, 0, 0, 0, 0, 0, 0, 0, 0, 0, 0, 0, 0, 0, 0, 0x00000018]
      = #v[0xa9993e36, 0x4706816a, 0xba3e2571, 0x7850c26c, 0x9cd0d89d]
    ∧ ∀ (hin : Hash) (m : Block),
    let x := fun t => sha1Steps t (loadWorking hin m)
    (x 0).s = m ∧ #v[(x 0).a, (x 0).b, (x 0).c, (x 0).d, (x 0).e] = hin
      ∧ (∀ t : Nat, t ≤ 79 →
          (x (t + 1)).a =
              rotl (x t).a 5 + roundFunction t (x t).b (x t).c (x t).d + (x t).e + circular (x (t + 1)).s t + roundConstant t
            ∧ (x (t + 1)).b = (x t).a ∧ (x (t + 1)).c = rotl (x t).b 30 ∧ (x (t + 1)).d = (x t).c ∧ (x (t + 1)).e = (x t).d
            ∧ (x (t + 1)).s = scheduleStep t (x t).s)
      ∧ compress hin m
          = #v[hin[0] + (x 80).a, hin[1] + (x 80).b, hin[2] + (x 80).c, hin[3] + (x 80).d, hin[4] + (x 80).e]

/-- The padding of R68 fills whole blocks with the least number of zero bytes, and hashing a whole first block and going on is
hashing the whole string (R68, R78). -/
def Obligations.PaddingFillsWholeBlocksAndChains : Prop :=
  (∀ (before : Nat) (m : List Byte),
      (padMessage before m).length % 64 = 0
        ∧ (padMessage before m).length = m.length + 1 + padZeros m.length + 8
        ∧ ∀ z, z < padZeros m.length → (m.length + 1 + z + 8) % 64 ≠ 0)
    ∧ (∀ (h : Hash) (before : Nat) (b m : List Byte), b.length = 64 →
        sha1From h before (b ++ m) = sha1From (compress h (blockOfList b)) (before + 64) m)

/-! ### HMAC and PBKDF2 -/

/-- R75: the key block of a password, hashed first exactly when it is longer than 64 bytes. -/
def Obligations.KeyBlockHashesOnlyLongPasswords : Prop :=
  ∀ p : List Byte,
    (p.length ≤ 64 → bytesOfWords (keyBlock p).toList = p ++ List.replicate (64 - p.length) 0)
      ∧ (64 < p.length →
          (∀ j : Fin 5, (keyBlock p)[j.val] = (sha1 p)[j]) ∧ (∀ j : Fin 16, 5 ≤ j.val → (keyBlock p)[j] = 0))

/-- R76: the pad blocks XOR every byte of the key block with 0x36 and 0x5c, the zero padding included. -/
def Obligations.PadBlocksXorEveryByte : Prop :=
  (∀ j : Fin 16, ipad[j] = 0x36363636 ∧ opad[j] = 0x5C5C5C5C)
    ∧ ∀ (k0 : Block) (k : Nat), k < 64 →
        byteOf (xorBlock k0 ipad) k = byteOf k0 k ^^^ 0x36 ∧ byteOf (xorBlock k0 opad) k = byteOf k0 k ^^^ 0x5c

/-- R91: the bytes of the first block, its word 14 always 0 and its word 15 the length `8·(68 + L)`. -/
def Obligations.FirstBlockLayout : Prop :=
  ∀ (salt : SaltBank) (len : Nat) (i : Word), len ≤ 51 →
    bytesOfWords (firstBlock salt len i).toList
        = (bytesOfWords salt.toList).take len ++ be32 i ++ 0x80 :: (List.replicate (51 - len) 0
            ++ be64 (BitVec.ofNat 64 (8 * (64 + len + 4))))
      ∧ (firstBlock salt len i)[14] = 0
      ∧ (firstBlock salt len i)[15] = BitVec.ofNat 32 (8 * (68 + len))

/-- R92: the bytes of a digest block. -/
def Obligations.DigestBlockLayout : Prop :=
  ∀ h : Hash,
    bytesOfWords (digestBlock h).toList = hashBytes h ++ 0x80 :: (List.replicate 35 0 ++ be64 672)
      ∧ (digestBlock h).toList = h.toList ++ [0x80000000, 0, 0, 0, 0, 0, 0, 0, 0, 0, 0x000002A0]

/-- Salt register bytes at or beyond `SALTLEN` do not affect the output block (R16, R91, R97). A length above 51 and a count
of 0 or above 2^32 - 1, which PBLK never runs with, have the value of notes/assumptions/12.md. -/
def Obligations.SaltBytesBeyondLengthAreIgnored : Prop :=
  ∀ (inner outer : Hash) (salt salt' : SaltBank) (len c : Nat) (i : Word),
    (∀ k, k < len → byteOf salt k = byteOf salt' k) →
      pbkdfBlock inner outer salt len i c = pbkdfBlock inner outer salt' len i c

/-- The chain of outputs and the accumulator, which starts as `U_1`: the output block is `U_1 ^ U_2 ^ ... ^ U_c`,
word by word (R94 to R96). A salt length above 51 and a count above 2^32 - 1, which those rules leave out and PBLK never runs with, have
the value of notes/assumptions/12.md (DESIGN CHOICE). -/
def Obligations.OutputBlockIsXorOfTheChain : Prop :=
  ∀ (inner outer : Hash) (salt : SaltBank) (len c : Nat) (i : Word), 1 ≤ c →
    let u := chainOutput inner outer salt len i
    (∀ k : Nat, u (k + 1) = compress outer (digestBlock (compress inner (digestBlock (u k)))))
      ∧ pbkdfBlock inner outer salt len i 1 = u 0
      ∧ pbkdfBlock inner outer salt len i c
          = (List.range (c - 1)).foldl (fun acc k => xorHash acc (u (k + 1))) (u 0)
      ∧ ∀ (x y : Hash) (j : Fin 5), (xorHash x y)[j] = x[j] ^^^ y[j]

/-- What PBLK leaves in `T` depends on its operands only, so blocks may be computed in any order and on any core that holds the
same context, salt and count (R100). -/
def Obligations.OutputBlockDependsOnlyOnItsOperands : Prop :=
  ∀ s s' : State, s.status.busy = true → s'.status.busy = true → s.hidden.op = 0x05 → s'.hidden.op = 0x05 →
    s.inner = s'.inner → s.outer = s'.outer → s.salt = s'.salt → s.saltlen = s'.saltlen → s.iter = s'.iter →
    s.blkidx = s'.blkidx →
      ∃ t t', perform .engine s = .next t ∧ perform .engine s' = .next t' ∧ t.t = t'.t
        ∧ t.inner = t'.inner ∧ t.outer = t'.outer ∧ t.salt = t'.salt ∧ t.saltlen = t'.saltlen ∧ t.iter = t'.iter

/-- R84: HMAC computed from the precomputed states equals the standard two-pass construction: for every message by continuing
the two hashes, and for a message of at most 55 bytes by exactly two compressions. -/
def Obligations.PrecomputedHmacEqualsTwoPass : Prop :=
  ∀ p m : List Byte,
    let ctx := hmacCtx (keyBlock p)
    hmacTwoPass p m = sha1From ctx.2 64 (hashBytes (sha1From ctx.1 64 m))
      ∧ (m.length ≤ 55 → hmacTwoPass p m = compress ctx.2 (digestBlock (compress ctx.1 (msgBlock m))))

/-- R94: the first output of a block equals `HMAC(password, salt || BE32(i))`. -/
def Obligations.FirstOutputIsHmacOfSaltAndIndex : Prop :=
  ∀ (p salt : List Byte) (i : Word), salt.length ≤ 51 →
    let ctx := hmacCtx (keyBlock p)
    let u1 := chainOutput ctx.1 ctx.2 (saltWords salt) salt.length i 0
    u1 = compress ctx.2 (digestBlock (compress ctx.1 (firstBlock (saltWords salt) salt.length i)))
      ∧ u1 = hmacTwoPass p (salt ++ be32 i)

/-- R95: each further output equals `HMAC(password, U_{n-1})`. A salt length above 51 and an output past
`U_{2^32-1}`, which PBLK never computes, have the value of notes/assumptions/12.md. -/
def Obligations.FurtherOutputsAreHmacOfThePrevious : Prop :=
  ∀ (p : List Byte) (salt : SaltBank) (len k : Nat) (i : Word),
    let ctx := hmacCtx (keyBlock p)
    chainOutput ctx.1 ctx.2 salt len i (k + 1) = hmacTwoPass p (hashBytes (chainOutput ctx.1 ctx.2 salt len i k))

/-! ### Host procedures, from every idle state with no error and for every completion time -/

/-- R72: `HostSha1(m)` leaves `Sha1(m)` in `H`. -/
def Obligations.HostSha1LeavesTheDigest : Prop :=
  ∀ (s : State) (polls : Nat → Nat) (m : List Byte), s.Ready →
    ∃ t, performAll (hostSha1Moves polls m) s = .next t
      ∧ t.registers
          = { s.registers with h := sha1 m, w := t.w, status := { s.status with busy := false, done := true } }

/-- R82: `HostKeyShort(P)` leaves the context of the password. -/
def Obligations.HostKeyShortLeavesTheContext : Prop :=
  ∀ (s : State) (polls : Nat → Nat) (p : List Byte), s.Ready → p.length ≤ 64 →
    ∃ t, performAll (hostKeyShortMoves polls p) s = .next t
      ∧ t.registers
          = { s.registers with
              w := keyBlock p
              inner := (hmacCtx (keyBlock p)).1
              outer := (hmacCtx (keyBlock p)).2
              status := { s.status with busy := false, done := true, ctxv := true } }

/-- R83: `HostKeyLong(P)` leaves the context of the password. -/
def Obligations.HostKeyLongLeavesTheContext : Prop :=
  ∀ (s : State) (polls : Nat → Nat) (p : List Byte), s.Ready → 64 < p.length →
    ∃ t, performAll (hostKeyLongMoves polls p) s = .next t
      ∧ t.registers
          = { s.registers with
              w := keyBlock p
              h := sha1 p
              inner := (hmacCtx (keyBlock p)).1
              outer := (hmacCtx (keyBlock p)).2
              status := { s.status with busy := false, done := true, ctxv := true } }

/-- R101: `HostDeriveKey` on one core returns `T_1 || T_2 || ... || T_numBlocks` truncated, and no error arises; a call whose
preconditions fail is rejected before the core is touched. -/
def Obligations.HostDeriveKeyReturnsTheDerivedKey : Prop :=
  ∀ (s : State) (keyPolls blockPolls : Nat → Nat) (call : DeriveCall), s.Ready →
    ((1 ≤ call.iterations ∧ call.iterations ≤ 2 ^ 32 - 1 ∧ 1 ≤ call.keyLength ∧ (call.keyLength + 19) / 20 ≤ 2 ^ 32 - 1
          ∧ call.salt.length + 4 ≤ 55) →
        ∃ t, hostDeriveKey keyPolls blockPolls call s = some (derivedKey call, t) ∧ t.Ready)
      ∧ ((call.iterations < 1 ∨ call.keyLength < 1 ∨ 55 < call.salt.length + 4 ∨ 2 ^ 32 - 1 < call.iterations
          ∨ 2 ^ 32 - 1 < (call.keyLength + 19) / 20) →
          hostDeriveKey keyPolls blockPolls call s = none)

/-- R102: the derived key has exactly the requested length, and a shorter key is a prefix of a longer one. It is said of the pure
function and so also of calls outside R101's ranges, a key above `20·(2^32 - 1)` bytes and a count above `2^32 - 1` among them, whose value is the model's
choice (DESIGN CHOICE, notes/assumptions/12.md); the host rejects those calls. -/
def Obligations.DerivedKeyLengthAndPrefix : Prop :=
  ∀ (call : DeriveCall) (k : Nat), 1 ≤ call.keyLength →
    (derivedKey call).length = call.keyLength
      ∧ (call.keyLength < k → derivedKey call <+: derivedKey { call with keyLength := k })

/-- The HMAC of a short message computed on the core with COMP alone from the context of a password (the procedure at the end
of R84) is the standard two-pass value. -/
def Obligations.HmacThroughCompIsTwoPassHmac : Prop :=
  ∀ (s : State) (polls : Nat → Nat) (p m : List Byte), s.Ready → m.length ≤ 55 →
    (s.inner, s.outer) = hmacCtx (keyBlock p) →
      ∃ t, hostHmac polls m s = some ((hmacTwoPass p m).toList, t)

/-! ### Completion of an accepted command -/

/-- R149 with R141's exception: a command that is running completes unless reset intervenes. For every agenda without a reset, some
number of steps, at most one more than the agenda has moves, ends with `BUSY = 0` for the first time, and then the command's whole
result is in the registers: the data registers, `DONE` and `CTXV` are the table's, and `ERR` and `ERRCODE` too unless a host write
made while busy raised BUSYWR (R122); CLR leaves the reset values, `STATUS` included. The agenda and the engine's turn when it is empty
are the model's choice (notes/assumptions/1.md), and the completion time is where that turn stands (notes/assumptions/6.md). -/
def Obligations.AcceptedCommandCompletesUnlessReset : Prop :=
  ∀ (s : State) (i : Instr), s.status.busy = true → s.hidden.op = opcodeOf i → (∀ m ∈ s.agenda, m ≠ .reset) →
    ∃ k t, k ≤ s.agenda.length ∧ Host.Core.run Sys2Proof.core (k + 1) s = .next t
      ∧ (∀ j, j ≤ k → ∃ u, Host.Core.run Sys2Proof.core j s = .next u ∧ u.status.busy = true)
      ∧ t.status.busy = false
      ∧ t.dataRegisters = (commandResult i s).dataRegisters
      ∧ t.status.done = (commandResult i s).status.done
      ∧ t.status.ctxv = (commandResult i s).status.ctxv
      ∧ (i = .clr → t.registers = State.reset.registers)
      ∧ (i ≠ .clr → (s.status.err = true ∨ ∀ m ∈ s.agenda.take k, ∀ idx v, m ≠ .write idx v) →
          t.status.err = s.status.err ∧ t.status.errcode = s.status.errcode)

/-! ### The host's notation and its mistakes -/

/-- The pseudo-instructions expand as R53's table says, register by register. That WAIT is a number of polls around the engine's turn
is the model's choice (notes/assumptions/6.md). -/
def Obligations.PseudoInstructionsExpandAsTabled : Prop :=
  (∀ b : List Byte, b.length = 64 →
      ldblkMoves b = (List.range 16).map fun j => .write (BitVec.ofNat 7 (0x10 + j)) ((wordsOfBytes b).getD j 0))
    ∧ (∀ p : List Byte, p.length ≤ 64 → ldkeyMoves p = ldblkMoves (p ++ List.replicate (64 - p.length) 0))
    ∧ (∀ salt : List Byte, salt.length ≤ 51 →
        ldsaltMoves salt
          = ((List.range 13).map fun j =>
              .write (BitVec.ofNat 7 (0x40 + j)) ((wordsOfBytes (salt ++ List.replicate (52 - salt.length) 0)).getD j 0))
            ++ [.write 0x04 (BitVec.ofNat 32 salt.length)])
    ∧ rdtMoves = (List.range 5).map (fun j => .read (BitVec.ofNat 7 (0x38 + j)))
    ∧ rdhMoves = (List.range 5).map (fun j => .read (BitVec.ofNat 7 (0x20 + j)))
    ∧ ∀ (polls : Nat) (i : Instr),
        cmdMoves polls i = .write 0x00 (encode i) :: (List.replicate polls (.read 0x01) ++ [.engine, .read 0x01])

/-- R83 and R147: `HostKeyShort` on a password longer than 64 bytes, truncated by the host or not, and `HostKeyLong` on one of at most
64 bytes raise no error and derive a context all the same: that of the first 64 bytes, and that of the digest. That the untruncated
password counts as its first 64 bytes is read from R53's sixteen words (DEDUCED, notes/assumptions/16.md). -/
def Obligations.KeyProcedureMistakesRaiseNoError : Prop :=
  ∀ (s : State) (polls : Nat → Nat) (p : List Byte), s.Ready →
    (64 < p.length →
        hostKeyShortMoves polls p = hostKeyShortMoves polls (p.take 64)
          ∧ ∃ t, performAll (hostKeyShortMoves polls p) s = .next t
            ∧ t.registers
              = { s.registers with
                  w := blockOfList (p.take 64)
                  inner := (hmacCtx (blockOfList (p.take 64))).1
                  outer := (hmacCtx (blockOfList (p.take 64))).2
                  status := { s.status with busy := false, done := true, ctxv := true } })
      ∧ (p.length ≤ 64 →
          let k0 : Block := Vector.ofFn fun j => if h : j.val < 5 then (sha1 p)[j.val] else 0
          ∃ t, performAll (hostKeyLongMoves polls p) s = .next t
            ∧ t.registers
              = { s.registers with
                  w := k0
                  h := sha1 p
                  inner := (hmacCtx k0).1
                  outer := (hmacCtx k0).2
                  status := { s.status with busy := false, done := true, ctxv := true } })
end

