-- ==== Sys2Proof/Laws/Bits.lean ====
section
/-! SUPPORT. Bytes of words and words of bytes, read back one by one. -/

namespace Sys2Proof.Machine

theorem getLsbD_packWord (b0 b1 b2 b3 : Byte) (k : Nat) :
    (packWord b0 b1 b2 b3).getLsbD k =
      if k < 8 then b3.getLsbD k
      else if k < 16 then b2.getLsbD (k - 8)
      else if k < 24 then b1.getLsbD (k - 16)
      else b0.getLsbD (k - 24) := by
  simp only [packWord, BitVec.getLsbD_append]
  split_ifs <;> first | rfl | (exfalso; omega)

theorem getLsbD_wordByte (v : Word) (j k : Nat) :
    (wordByte v j).getLsbD k = (decide (k < 8) && v.getLsbD (24 - 8 * j + k)) := by
  simp [wordByte]

/-- Byte `j` of a packed word is its `j`-th byte (R7). -/
theorem wordByte_packWord (b0 b1 b2 b3 : Byte) :
    wordByte (packWord b0 b1 b2 b3) 0 = b0 ∧ wordByte (packWord b0 b1 b2 b3) 1 = b1
      ∧ wordByte (packWord b0 b1 b2 b3) 2 = b2 ∧ wordByte (packWord b0 b1 b2 b3) 3 = b3 := by
  refine ⟨?_, ?_, ?_, ?_⟩ <;>
  · ext k hk
    simp only [BitVec.getElem_eq_testBit_toNat, BitVec.testBit_toNat, getLsbD_wordByte, getLsbD_packWord, hk, decide_true,
      Bool.true_and]
    repeat first
      | rw [if_pos (by omega)]
      | rw [if_neg (by omega)]
    try (congr 1; omega)

/-- A word is packed from its four bytes (R7). -/
theorem packWord_wordByte (v : Word) :
    packWord (wordByte v 0) (wordByte v 1) (wordByte v 2) (wordByte v 3) = v := by
  ext k hk
  simp only [BitVec.getElem_eq_testBit_toNat, BitVec.testBit_toNat, getLsbD_packWord, getLsbD_wordByte]
  split
  · simp_all
  · split
    · rw [decide_eq_true (by omega), Bool.true_and]; congr 1; omega
    · split
      · rw [decide_eq_true (by omega), Bool.true_and]; congr 1; omega
      · rw [decide_eq_true (by omega), Bool.true_and]; congr 1; omega

@[simp] theorem getElem_addHash (x y : Hash) (j : Nat) (h : j < 5) : (addHash x y)[j] = x[j] + y[j] := by
  simp [addHash]

@[simp] theorem getElem_xorHash (x y : Hash) (j : Nat) (h : j < 5) : (xorHash x y)[j] = x[j] ^^^ y[j] := by
  simp [xorHash]

@[simp] theorem getElem_xorBlock (x y : Block) (j : Nat) (h : j < 16) : (xorBlock x y)[j] = x[j] ^^^ y[j] := by
  simp [xorBlock]

@[simp] theorem getElem_blockOfBytes (m : Nat → Byte) (j : Nat) (h : j < 16) :
    (blockOfBytes m)[j] = packWord (m (4 * j)) (m (4 * j + 1)) (m (4 * j + 2)) (m (4 * j + 3)) := by
  simp [blockOfBytes]

theorem byteOf_eq {n : Nat} (x : Vector Word n) (k : Nat) (h : k / 4 < n) :
    byteOf x k = wordByte x[k / 4] (k % 4) := by
  simp [byteOf, h]

/-- Byte `k` of the block made of the bytes `m` is `m k` (R7, R17). -/
theorem byteOf_blockOfBytes (m : Nat → Byte) (k : Nat) (h : k < 64) : byteOf (blockOfBytes m) k = m k := by
  rw [byteOf_eq _ _ (by omega), getElem_blockOfBytes _ _ (by omega)]
  have hb := wordByte_packWord (m (4 * (k / 4))) (m (4 * (k / 4) + 1)) (m (4 * (k / 4) + 2)) (m (4 * (k / 4) + 3))
  obtain ⟨h0, h1, h2, h3⟩ := hb
  have hk : k % 4 = 0 ∨ k % 4 = 1 ∨ k % 4 = 2 ∨ k % 4 = 3 := by omega
  rcases hk with hk | hk | hk | hk <;> rw [hk]
  · rw [h0]; congr 1; omega
  · rw [h1]; congr 1; omega
  · rw [h2]; congr 1; omega
  · rw [h3]; congr 1; omega

@[simp] theorem length_be32 (v : Word) : (be32 v).length = 4 := rfl

@[simp] theorem length_be64 (v : BitVec 64) : (be64 v).length = 8 := by
  simp [be64]

@[simp] theorem length_bytesOfWords (x : List Word) : (bytesOfWords x).length = 4 * x.length := by
  induction x with
  | nil => rfl
  | cons v vs ih => simp only [bytesOfWords, List.flatMap_cons, List.length_append] at *; simp only [ih, length_be32, List.length_cons]; omega

@[simp] theorem length_hashBytes (x : Hash) : (hashBytes x).length = 20 := by
  simp [hashBytes]

/-- The `k`-th byte of a list of words (R7). -/
theorem getElem?_bytesOfWords (l : List Word) (k : Nat) (h : k < 4 * l.length) :
    (bytesOfWords l)[k]? = (l[k / 4]?).map fun v => wordByte v (k % 4) := by
  induction l generalizing k with
  | nil => simp at h
  | cons v vs ih =>
    show (be32 v ++ bytesOfWords vs)[k]? = _
    by_cases hk : k < 4
    · rw [List.getElem?_append_left (by simpa using hk)]
      have hcases : k = 0 ∨ k = 1 ∨ k = 2 ∨ k = 3 := by omega
      rcases hcases with rfl | rfl | rfl | rfl <;> rfl
    · rw [List.getElem?_append_right (by simp; omega), length_be32, ih (k - 4) (by simp at h; omega)]
      rw [show k / 4 = (k - 4) / 4 + 1 by omega, List.getElem?_cons_succ, show (k - 4) % 4 = k % 4 by omega]

/-- Blocks with the same 64 bytes are the same block (R7). -/
theorem block_ext_bytes {x y : Block} (h : ∀ k, k < 64 → byteOf x k = byteOf y k) : x = y := by
  apply Vector.ext
  intro j hj
  have word : ∀ z : Block,
      z[j] = packWord (byteOf z (4 * j)) (byteOf z (4 * j + 1)) (byteOf z (4 * j + 2)) (byteOf z (4 * j + 3)) := by
    intro z
    rw [byteOf_eq _ _ (by omega), byteOf_eq _ _ (by omega), byteOf_eq _ _ (by omega), byteOf_eq _ _ (by omega)]
    simp only [show 4 * j / 4 = j by omega, show (4 * j + 1) / 4 = j by omega, show (4 * j + 2) / 4 = j by omega,
      show (4 * j + 3) / 4 = j by omega, show 4 * j % 4 = 0 by omega, show (4 * j + 1) % 4 = 1 by omega,
      show (4 * j + 2) % 4 = 2 by omega, show (4 * j + 3) % 4 = 3 by omega]
    exact (packWord_wordByte z[j]).symm
  rw [word x, word y, h _ (by omega), h _ (by omega), h _ (by omega), h _ (by omega)]

/-- The five words of a hash state as a list. -/
theorem toList_hash (x : Hash) : x.toList = [x[0], x[1], x[2], x[3], x[4]] := by
  apply List.ext_getElem (by simp)
  intro j h1 _
  have hcases : j = 0 ∨ j = 1 ∨ j = 2 ∨ j = 3 ∨ j = 4 := by simp at h1; omega
  rcases hcases with rfl | rfl | rfl | rfl | rfl <;> simp

end Sys2Proof.Machine
end

