-- ==== Sys2Proof/Laws/Decode.lean ====
section
/-! SUPPORT. What the decoder can answer. -/

namespace Sys2Proof

theorem opcodeOf_injective {i j : Instr} (h : opcodeOf i = opcodeOf j) : i = j := by
  cases i <;> cases j <;> first | rfl | exact absurd h (by decide)

@[simp] theorem decodeOpcode_opcodeOf (i : Instr) : decodeOpcode (opcodeOf i) = .ok i := by
  cases i <;> rfl

/-- An opcode that decodes is the command's own (R47). -/
theorem decodeOpcode_ok {op : BitVec 8} {i : Instr} (h : decodeOpcode op = .ok i) : op = opcodeOf i := by
  unfold decodeOpcode at h
  split at h <;> first | (cases h; apply BitVec.eq_of_toNat_eq; simpa [opcodeOf] using ‹_›) | cases h

/-- A word that decodes has no bit above its opcode, and the opcode is a command's (R45, R48). -/
theorem decode_ok {v : Word} {i : Instr} (h : decode v = .ok i) :
    (commandFields v).zero = 0 ∧ (commandFields v).opcode = opcodeOf i := by
  unfold decode at h
  split at h
  case isTrue hz => exact ⟨by simpa [CommandFields.zeroClear] using hz, decodeOpcode_ok h⟩
  case isFalse => cases h

theorem toNat_encode (i : Instr) : (encode i).toNat = (opcodeOf i).toNat := by
  cases i <;> rfl

end Sys2Proof
end

