-- ==== Sys2Proof/Laws/State.lean ====
section
/-! SUPPORT. What each shared update does to each field of the state: one lemma per field per update, true by `rfl`. -/

namespace Sys2Proof.Machine

@[simp] theorem raiseError_status (e : CoreError) (s : State) : (raiseError e s).status = s.status.raised e := rfl
@[simp] theorem raiseError_iter (e : CoreError) (s : State) : (raiseError e s).iter = s.iter := rfl
@[simp] theorem raiseError_blkidx (e : CoreError) (s : State) : (raiseError e s).blkidx = s.blkidx := rfl
@[simp] theorem raiseError_saltlen (e : CoreError) (s : State) : (raiseError e s).saltlen = s.saltlen := rfl
@[simp] theorem raiseError_w (e : CoreError) (s : State) : (raiseError e s).w = s.w := rfl
@[simp] theorem raiseError_h (e : CoreError) (s : State) : (raiseError e s).h = s.h := rfl
@[simp] theorem raiseError_inner (e : CoreError) (s : State) : (raiseError e s).inner = s.inner := rfl
@[simp] theorem raiseError_outer (e : CoreError) (s : State) : (raiseError e s).outer = s.outer := rfl
@[simp] theorem raiseError_t (e : CoreError) (s : State) : (raiseError e s).t = s.t := rfl
@[simp] theorem raiseError_salt (e : CoreError) (s : State) : (raiseError e s).salt = s.salt := rfl
@[simp] theorem raiseError_hidden (e : CoreError) (s : State) : (raiseError e s).hidden = s.hidden := rfl
@[simp] theorem raiseError_agenda (e : CoreError) (s : State) : (raiseError e s).agenda = s.agenda := rfl
@[simp] theorem raiseError_replies (e : CoreError) (s : State) : (raiseError e s).replies = s.replies := rfl
@[simp] theorem raiseError_freeIndex (e : CoreError) (s : State) : (raiseError e s).freeIndex = s.freeIndex := rfl

@[simp] theorem disturbHidden_status (op : BitVec 8) (s : State) : (disturbHidden op s).status = s.status := rfl
@[simp] theorem disturbHidden_iter (op : BitVec 8) (s : State) : (disturbHidden op s).iter = s.iter := rfl
@[simp] theorem disturbHidden_blkidx (op : BitVec 8) (s : State) : (disturbHidden op s).blkidx = s.blkidx := rfl
@[simp] theorem disturbHidden_saltlen (op : BitVec 8) (s : State) : (disturbHidden op s).saltlen = s.saltlen := rfl
@[simp] theorem disturbHidden_w (op : BitVec 8) (s : State) : (disturbHidden op s).w = s.w := rfl
@[simp] theorem disturbHidden_h (op : BitVec 8) (s : State) : (disturbHidden op s).h = s.h := rfl
@[simp] theorem disturbHidden_inner (op : BitVec 8) (s : State) : (disturbHidden op s).inner = s.inner := rfl
@[simp] theorem disturbHidden_outer (op : BitVec 8) (s : State) : (disturbHidden op s).outer = s.outer := rfl
@[simp] theorem disturbHidden_t (op : BitVec 8) (s : State) : (disturbHidden op s).t = s.t := rfl
@[simp] theorem disturbHidden_salt (op : BitVec 8) (s : State) : (disturbHidden op s).salt = s.salt := rfl
@[simp] theorem disturbHidden_hidden (op : BitVec 8) (s : State) : (disturbHidden op s).hidden = { op := op, scratch := freeScratch s.freeIndex } := rfl
@[simp] theorem disturbHidden_agenda (op : BitVec 8) (s : State) : (disturbHidden op s).agenda = s.agenda := rfl
@[simp] theorem disturbHidden_replies (op : BitVec 8) (s : State) : (disturbHidden op s).replies = s.replies := rfl
@[simp] theorem disturbHidden_freeIndex (op : BitVec 8) (s : State) : (disturbHidden op s).freeIndex = s.freeIndex + 1 := rfl

@[simp] theorem acceptCommand_status (i : Instr) (s : State) : (acceptCommand i s).status = s.status.accepted := rfl
@[simp] theorem acceptCommand_iter (i : Instr) (s : State) : (acceptCommand i s).iter = s.iter := rfl
@[simp] theorem acceptCommand_blkidx (i : Instr) (s : State) : (acceptCommand i s).blkidx = s.blkidx := rfl
@[simp] theorem acceptCommand_saltlen (i : Instr) (s : State) : (acceptCommand i s).saltlen = s.saltlen := rfl
@[simp] theorem acceptCommand_w (i : Instr) (s : State) : (acceptCommand i s).w = s.w := rfl
@[simp] theorem acceptCommand_h (i : Instr) (s : State) : (acceptCommand i s).h = s.h := rfl
@[simp] theorem acceptCommand_inner (i : Instr) (s : State) : (acceptCommand i s).inner = s.inner := rfl
@[simp] theorem acceptCommand_outer (i : Instr) (s : State) : (acceptCommand i s).outer = s.outer := rfl
@[simp] theorem acceptCommand_t (i : Instr) (s : State) : (acceptCommand i s).t = s.t := rfl
@[simp] theorem acceptCommand_salt (i : Instr) (s : State) : (acceptCommand i s).salt = s.salt := rfl
@[simp] theorem acceptCommand_hidden (i : Instr) (s : State) : (acceptCommand i s).hidden = { op := opcodeOf i, scratch := freeScratch s.freeIndex } := rfl
@[simp] theorem acceptCommand_agenda (i : Instr) (s : State) : (acceptCommand i s).agenda = s.agenda := rfl
@[simp] theorem acceptCommand_replies (i : Instr) (s : State) : (acceptCommand i s).replies = s.replies := rfl
@[simp] theorem acceptCommand_freeIndex (i : Instr) (s : State) : (acceptCommand i s).freeIndex = s.freeIndex + 1 := rfl

@[simp] theorem finishCommand_status (s : State) : (finishCommand s).status = s.status.completed := rfl
@[simp] theorem finishCommand_iter (s : State) : (finishCommand s).iter = s.iter := rfl
@[simp] theorem finishCommand_blkidx (s : State) : (finishCommand s).blkidx = s.blkidx := rfl
@[simp] theorem finishCommand_saltlen (s : State) : (finishCommand s).saltlen = s.saltlen := rfl
@[simp] theorem finishCommand_w (s : State) : (finishCommand s).w = s.w := rfl
@[simp] theorem finishCommand_h (s : State) : (finishCommand s).h = s.h := rfl
@[simp] theorem finishCommand_inner (s : State) : (finishCommand s).inner = s.inner := rfl
@[simp] theorem finishCommand_outer (s : State) : (finishCommand s).outer = s.outer := rfl
@[simp] theorem finishCommand_t (s : State) : (finishCommand s).t = s.t := rfl
@[simp] theorem finishCommand_salt (s : State) : (finishCommand s).salt = s.salt := rfl
@[simp] theorem finishCommand_hidden (s : State) : (finishCommand s).hidden = { op := Config.freeOpcode s.freeIndex, scratch := freeScratch s.freeIndex } := rfl
@[simp] theorem finishCommand_agenda (s : State) : (finishCommand s).agenda = s.agenda := rfl
@[simp] theorem finishCommand_replies (s : State) : (finishCommand s).replies = s.replies := rfl
@[simp] theorem finishCommand_freeIndex (s : State) : (finishCommand s).freeIndex = s.freeIndex + 1 := rfl

@[simp] theorem clearRegisters_status (s : State) : (clearRegisters s).status = State.reset.status := rfl
@[simp] theorem clearRegisters_iter (s : State) : (clearRegisters s).iter = State.reset.iter := rfl
@[simp] theorem clearRegisters_blkidx (s : State) : (clearRegisters s).blkidx = State.reset.blkidx := rfl
@[simp] theorem clearRegisters_saltlen (s : State) : (clearRegisters s).saltlen = State.reset.saltlen := rfl
@[simp] theorem clearRegisters_w (s : State) : (clearRegisters s).w = State.reset.w := rfl
@[simp] theorem clearRegisters_h (s : State) : (clearRegisters s).h = State.reset.h := rfl
@[simp] theorem clearRegisters_inner (s : State) : (clearRegisters s).inner = State.reset.inner := rfl
@[simp] theorem clearRegisters_outer (s : State) : (clearRegisters s).outer = State.reset.outer := rfl
@[simp] theorem clearRegisters_t (s : State) : (clearRegisters s).t = State.reset.t := rfl
@[simp] theorem clearRegisters_salt (s : State) : (clearRegisters s).salt = State.reset.salt := rfl
@[simp] theorem clearRegisters_hidden (s : State) : (clearRegisters s).hidden = { op := Config.freeOpcode s.freeIndex, scratch := freeScratch s.freeIndex } := rfl
@[simp] theorem clearRegisters_agenda (s : State) : (clearRegisters s).agenda = s.agenda := rfl
@[simp] theorem clearRegisters_replies (s : State) : (clearRegisters s).replies = s.replies := rfl
@[simp] theorem clearRegisters_freeIndex (s : State) : (clearRegisters s).freeIndex = s.freeIndex + 1 := rfl

@[simp] theorem hostRead_status (idx : SlotIndex) (s : State) : (hostRead idx s).status = s.status := rfl
@[simp] theorem hostRead_iter (idx : SlotIndex) (s : State) : (hostRead idx s).iter = s.iter := rfl
@[simp] theorem hostRead_blkidx (idx : SlotIndex) (s : State) : (hostRead idx s).blkidx = s.blkidx := rfl
@[simp] theorem hostRead_saltlen (idx : SlotIndex) (s : State) : (hostRead idx s).saltlen = s.saltlen := rfl
@[simp] theorem hostRead_w (idx : SlotIndex) (s : State) : (hostRead idx s).w = s.w := rfl
@[simp] theorem hostRead_h (idx : SlotIndex) (s : State) : (hostRead idx s).h = s.h := rfl
@[simp] theorem hostRead_inner (idx : SlotIndex) (s : State) : (hostRead idx s).inner = s.inner := rfl
@[simp] theorem hostRead_outer (idx : SlotIndex) (s : State) : (hostRead idx s).outer = s.outer := rfl
@[simp] theorem hostRead_t (idx : SlotIndex) (s : State) : (hostRead idx s).t = s.t := rfl
@[simp] theorem hostRead_salt (idx : SlotIndex) (s : State) : (hostRead idx s).salt = s.salt := rfl
@[simp] theorem hostRead_hidden (idx : SlotIndex) (s : State) : (hostRead idx s).hidden = s.hidden := rfl
@[simp] theorem hostRead_agenda (idx : SlotIndex) (s : State) : (hostRead idx s).agenda = s.agenda := rfl
@[simp] theorem hostRead_replies (idx : SlotIndex) (s : State) : (hostRead idx s).replies = s.replies ++ [memRead idx s] := rfl
@[simp] theorem hostRead_freeIndex (idx : SlotIndex) (s : State) : (hostRead idx s).freeIndex = s.freeIndex := rfl

@[simp] theorem accepted_busy (f : Status) : f.accepted.busy = true := rfl
@[simp] theorem accepted_done (f : Status) : f.accepted.done = false := rfl
@[simp] theorem accepted_err (f : Status) : f.accepted.err = f.err := rfl
@[simp] theorem accepted_ctxv (f : Status) : f.accepted.ctxv = f.ctxv := rfl
@[simp] theorem accepted_errcode (f : Status) : f.accepted.errcode = f.errcode := rfl

@[simp] theorem completed_busy (f : Status) : f.completed.busy = false := rfl
@[simp] theorem completed_done (f : Status) : f.completed.done = true := rfl
@[simp] theorem completed_err (f : Status) : f.completed.err = f.err := rfl
@[simp] theorem completed_ctxv (f : Status) : f.completed.ctxv = f.ctxv := rfl
@[simp] theorem completed_errcode (f : Status) : f.completed.errcode = f.errcode := rfl

@[simp] theorem raised_busy (f : Status) (e : CoreError) : (f.raised e).busy = f.busy := by
  unfold Status.raised; split <;> rfl
@[simp] theorem raised_done (f : Status) (e : CoreError) : (f.raised e).done = f.done := by
  unfold Status.raised; split <;> rfl
@[simp] theorem raised_ctxv (f : Status) (e : CoreError) : (f.raised e).ctxv = f.ctxv := by
  unfold Status.raised; split <;> rfl
@[simp] theorem raised_err (f : Status) (e : CoreError) : (f.raised e).err = true := by
  unfold Status.raised; split <;> simp_all
theorem raised_of_err {f : Status} (h : f.err = true) (e : CoreError) : f.raised e = f := by
  simp [Status.raised, h]
theorem raised_of_no_err {f : Status} (h : f.err = false) (e : CoreError) :
    f.raised e = { f with err := true, errcode := errorCode e } := by
  simp [Status.raised, h]
theorem errorCode_ne_zero (e : CoreError) : errorCode e ≠ 0 := by
  cases e <;> decide
theorem errorCode_le (e : CoreError) : (errorCode e).toNat ≤ 6 := by
  cases e <;> decide

@[simp] theorem reset_status_busy : State.reset.status.busy = false := rfl
@[simp] theorem reset_status_done : State.reset.status.done = false := rfl
@[simp] theorem reset_status_err : State.reset.status.err = false := rfl
@[simp] theorem reset_status_ctxv : State.reset.status.ctxv = false := rfl
@[simp] theorem reset_status_errcode : State.reset.status.errcode = 0 := rfl
@[simp] theorem getElem_zeros (n j : Nat) (h : j < n) : (zeros n)[j] = 0 := by
  simp [zeros]

end Sys2Proof.Machine
end

