-- ==== Sys2Proof/Laws/Ops.lean ====
section
/-! SUPPORT. Everything the shared operations can do, said once. -/

namespace Sys2Proof.Machine

theorem raiseError_of_err {s : State} (h : s.status.err = true) (e : CoreError) : raiseError e s = s := by
  simp [raiseError, raised_of_err h]

/-- The checks a command makes at `Dispatch` beyond a legal encoding (R49). -/
def commandCheck : Instr → State → Option CoreError
  | .ldiv => noCheck
  | .comp => noCheck
  | .kdig => noCheck
  | .hkey => noCheck
  | .pblk => pblkCheck
  | .clr => noCheck

/-- The effect of a command's `Complete` step (R50). -/
def commandEffect : Instr → State → State
  | .ldiv => ldivEffect
  | .comp => compEffect
  | .kdig => kdigEffect
  | .hkey => hkeyEffect
  | .pblk => pblkEffect
  | .clr => clrEffect

/-- Every meaning is the shared life of a command with the command's own checks and effect. -/
theorem exec_eq (i : Instr) (s : State) : exec i s = runCommand i (commandCheck i) (commandEffect i) s := by
  cases i <;> rfl

/-- `Dispatch` of a command: nothing, an error, or acceptance (R49). -/
theorem dispatchCommand_cases (i : Instr) (check : State → Option CoreError) (s : State) :
    (s.status.err = true ∧ i ≠ .clr ∧ dispatchCommand i check s = s)
    ∨ (s.status.err = false ∧ (∃ e, check s = some e ∧ dispatchCommand i check s = raiseError e s))
    ∨ ((s.status.err = true ∧ i = .clr ∨ s.status.err = false ∧ check s = none)
        ∧ dispatchCommand i check s = acceptCommand i s) := by
  cases he : s.status.err
  · right
    cases hc : check s with
    | some e => exact .inl ⟨rfl, e, rfl, by simp [dispatchCommand, he, hc]⟩
    | none => exact .inr ⟨.inr ⟨rfl, rfl⟩, by simp [dispatchCommand, he, hc]⟩
  · by_cases hi : i = .clr
    · exact .inr (.inr ⟨.inl ⟨rfl, hi⟩, by simp [dispatchCommand, he, hi]⟩)
    · exact .inl ⟨rfl, hi, by simp [dispatchCommand, he, hi]⟩

theorem exec_idle {s : State} (h : s.status.busy = false) (i : Instr) :
    exec i s = .next (dispatchCommand i (commandCheck i) s) := by
  simp [exec_eq, runCommand, h]

theorem exec_busy {s : State} {i : Instr} (h : s.status.busy = true) (ho : s.hidden.op = opcodeOf i) :
    exec i s = .next (commandEffect i s) := by
  simp [exec_eq, runCommand, h, ho]

/-- PBLK passes its checks exactly when the context is valid, the count is not 0 and the salt fits (R97). -/
theorem pblkCheck_eq_none_iff (s : State) :
    pblkCheck s = none ↔ s.status.ctxv = true ∧ s.iter ≠ 0 ∧ s.saltlen.toNat ≤ 51 := by
  unfold pblkCheck Config.maxSalt
  split
  · simp_all
  · split
    · simp_all
    · split
      · simp_all
      · simp_all

end Sys2Proof.Machine
end

