-- ==== Sys2Proof/Laws/Port.lean ====
section
/-! SUPPORT. Everything a host transaction, the engine's turn and a step can do, said once. -/

namespace Sys2Proof.Machine

/-- The engine's turn: nothing while idle, else the effect of the latched command, or a stop when no command is latched (R50). -/
theorem complete_cases (s : State) :
    (s.status.busy = false ∧ complete s = .next s)
    ∨ (s.status.busy = true ∧ ∃ i, s.hidden.op = opcodeOf i ∧ complete s = .next (commandEffect i s))
    ∨ (s.status.busy = true ∧ (∀ i, latchedCommand s ≠ .ok i) ∧ complete s = .fault .noLatchedCommand) := by
  cases hb : s.status.busy
  · exact .inl ⟨rfl, by simp [complete, hb]⟩
  · right
    cases hl : latchedCommand s with
    | ok i =>
      have ho : s.hidden.op = opcodeOf i := decodeOpcode_ok hl
      exact .inl ⟨rfl, i, ho, by simp [complete, hb, hl, exec_busy hb ho]⟩
    | error e => exact .inr ⟨rfl, by simp, by simp [complete, hb, hl]⟩

/-- A word written to `CMD` of an idle core: a command's `Dispatch`, or what an illegal word does (R48, R49). -/
theorem dispatchWord_cases {s : State} (hb : s.status.busy = false) (v : Word) :
    (∃ i, decode v = .ok i ∧ dispatchWord v s = .next (dispatchCommand i (commandCheck i) s))
    ∨ (∃ e, decode v = .error e ∧ dispatchWord v s = .next (raiseError .illcmd s)) := by
  cases hd : decode v with
  | ok i => exact .inl ⟨i, rfl, by simp [dispatchWord, hd, exec_idle hb]⟩
  | error e =>
    refine .inr ⟨e, rfl, ?_⟩
    cases he : s.status.err
    · simp [dispatchWord, hd, he]
    · simp [dispatchWord, hd, he, raiseError_of_err he]

/-- A host write always answers a next state: an error, a stored word, or a `Dispatch` (R32). -/
theorem memWrite_cases (idx : SlotIndex) (v : Word) (s : State) :
    (s.status.busy = true ∧ memWrite idx v s = .next (raiseError .busywr s))
    ∨ (s.status.busy = false ∧ slotOf idx = .cmd ∧ memWrite idx v s = dispatchWord v s)
    ∨ (s.status.busy = false ∧ slotOf idx ≠ .cmd ∧ ∃ s', writeSlot s v (slotOf idx) = some s' ∧ memWrite idx v s = .next s')
    ∨ (s.status.busy = false ∧ slotOf idx ≠ .cmd ∧ writeSlot s v (slotOf idx) = none
        ∧ memWrite idx v s = .next (raiseError .badwr s)) := by
  cases hb : s.status.busy
  · by_cases hc : slotOf idx = .cmd
    · exact .inr (.inl ⟨rfl, hc, by simp [memWrite, hb, hc]⟩)
    · cases hw : writeSlot s v (slotOf idx) with
      | some s' => exact .inr (.inr (.inl ⟨rfl, hc, s', rfl, by simp [memWrite, hb, hc, hw]⟩))
      | none => exact .inr (.inr (.inr ⟨rfl, hc, rfl, by simp [memWrite, hb, hc, hw]⟩))
  · exact .inl ⟨rfl, by simp [memWrite, hb]⟩

theorem memWrite_busy {s : State} (h : s.status.busy = true) (idx : SlotIndex) (v : Word) :
    memWrite idx v s = .next (raiseError .busywr s) := by
  simp [memWrite, h]

theorem memRead_busy {s : State} (h : s.status.busy = true) {idx : SlotIndex} (hi : idx ≠ 1) : memRead idx s = 0 := by
  rw [memRead, if_neg hi, if_pos h]

@[simp] theorem memRead_status (s : State) : memRead 0x01 s = s.status.word := by
  simp [memRead]

@[simp] theorem perform_read (idx : SlotIndex) (s : State) : perform (.read idx) s = .next (hostRead idx s) := rfl
@[simp] theorem perform_write (idx : SlotIndex) (v : Word) (s : State) : perform (.write idx v) s = memWrite idx v s := rfl
@[simp] theorem perform_engine (s : State) : perform .engine s = complete s := rfl
@[simp] theorem perform_reset (s : State) : perform .reset s = .next (clearRegisters s) := rfl

/-- With nothing on the agenda a step is the engine's turn (R150). -/
theorem step_nil {s : State} (h : s.agenda = []) : step s = complete s := by
  simp [step, advance, h]

/-- A step makes the first move of the agenda. -/
theorem step_cons {s : State} {m : Move} {rest : List Move} (h : s.agenda = m :: rest) :
    step s = perform m { s with agenda := rest } := by
  simp [step, advance, h]

/-- Moves one after the other: first some, then the others. -/
theorem performAll_append (ms ms' : List Move) (s : State) :
    performAll (ms ++ ms') s =
      match performAll ms s with
      | .next t => performAll ms' t
      | .fault r => .fault r
      | .refused r => .refused r := by
  induction ms generalizing s with
  | nil => rfl
  | cons m ms ih =>
    simp only [List.cons_append, performAll]
    cases perform m s <;> simp [ih]

theorem performAll_append_of_next {ms : List Move} {s t : State} (h : performAll ms s = .next t) (ms' : List Move) :
    performAll (ms ++ ms') s = performAll ms' t := by
  rw [performAll_append, h]

end Sys2Proof.Machine
end

