-- ==== Sys2Proof/Laws/Commands.lean ====
section
/-! SUPPORT. What each command leaves, field by field (spec/30_encoding.md R46, R50), and what the engine's turn leaves. -/

namespace Sys2Proof.Machine

/-- The hidden state after the completion of a command: free (R24, U11). -/
def hiddenAfter (s : State) : Hidden :=
  { op := Config.freeOpcode s.freeIndex, scratch := freeScratch s.freeIndex }

/-- The eleven zero words after the digest (R80). -/
theorem kdigBlock_eq (h : Hash) :
    (#v[h[0], h[1], h[2], h[3], h[4], 0, 0, 0, 0, 0, 0, 0, 0, 0, 0, 0] : Block)
      = Vector.ofFn fun j => if hj : j.val < 5 then h[j.val] else 0 := by
  ext j hj
  have hcases : j = 0 ∨ j = 1 ∨ j = 2 ∨ j = 3 ∨ j = 4 ∨ j = 5 ∨ j = 6 ∨ j = 7 ∨ j = 8 ∨ j = 9 ∨ j = 10 ∨ j = 11 ∨ j = 12
      ∨ j = 13 ∨ j = 14 ∨ j = 15 := by omega
  rcases hcases with rfl | rfl | rfl | rfl | rfl | rfl | rfl | rfl | rfl | rfl | rfl | rfl | rfl | rfl | rfl | rfl <;> simp

/-- The effect of a command's `Complete` step is the table's result of the command, up to the hidden state. -/
theorem commandEffect_eq (i : Instr) (s : State) :
    commandEffect i s = { commandResult i s with hidden := hiddenAfter s, freeIndex := s.freeIndex + 1 } := by
  cases i
  case kdig => simp only [commandEffect, commandResult, kdigEffect, kdigBlock_eq]; rfl
  all_goals rfl

/-- The engine's turn in a state whose latch holds command `i` (R50). -/
theorem complete_of_latched {s : State} {i : Instr} (hb : s.status.busy = true) (ho : s.hidden.op = opcodeOf i) :
    complete s = .next { commandResult i s with hidden := hiddenAfter s, freeIndex := s.freeIndex + 1 } := by
  have hl : latchedCommand s = .ok i := by simp [latchedCommand, ho]
  simp [complete, hb, hl, exec_busy hb ho, commandEffect_eq]

@[simp] theorem commandResult_agenda (i : Instr) (s : State) : (commandResult i s).agenda = s.agenda := by
  cases i <;> rfl

@[simp] theorem commandResult_replies (i : Instr) (s : State) : (commandResult i s).replies = s.replies := by
  cases i <;> rfl

@[simp] theorem commandResult_busy (i : Instr) (s : State) : (commandResult i s).status.busy = false := by
  cases i <;> rfl

@[simp] theorem visible_registers (s : State) : s.visible.registers = s.registers := rfl

theorem acceptCommand_acceptedFrom (i : Instr) (s : State) : AcceptedFrom i s (acceptCommand i s) :=
  ⟨_, _, rfl, rfl⟩

/-- A run goes on from the state its first step answers. -/
theorem run_of_step {s t : State} (h : step s = .next t) (k : Nat) :
    Host.Core.run Sys2Proof.core (k + 1) s = Host.Core.run Sys2Proof.core k t := by
  have hc : Sys2Proof.core.step s = .next t := h
  simp [Host.Core.run, hc]

end Sys2Proof.Machine
end

