-- ==== Sys2Proof/Laws/Compress.lean ====
section
/-! SUPPORT. What the parts of the compression engine do, said once (spec/40_compress.md R63 to R66). -/

namespace Sys2Proof.Machine

/-- Overwriting slot `i` of the circular buffer, read back at any step index (R63). -/
theorem circular_set (buf : Block) (i k : Nat) (v : Word) (hi : i < 16) :
    circular (buf.set i v hi) k = if k % 16 = i then v else circular buf k := by
  unfold circular
  rw [Vector.getElem_set]
  by_cases h : k % 16 = i
  · rw [if_pos h, if_pos h.symm]
  · rw [if_neg h, if_neg (Ne.symm h)]

theorem length_scheduleWords (m : Block) (k : Nat) : (scheduleWords m k).length = 16 + k := by
  induction k with
  | zero => simp [scheduleWords]
  | succ k ih => simp [scheduleWords, ih]; omega

/-- The five variables before step 0 are the input state (R65). -/
@[simp] theorem workingHash_loadWorking (hin : Hash) (m : Block) : workingHash (loadWorking hin m) = hin := by
  apply Vector.toList_inj.1
  rw [toList_hash hin]; rfl

/-- One step on the five variables as a hash state (R65). -/
theorem workingHash_sha1Step (t : Nat) (x : Working) :
    workingHash (sha1Step t x) =
      #v[rotl (workingHash x)[0] 5 + roundFunction t (workingHash x)[1] (workingHash x)[2] (workingHash x)[3]
            + (workingHash x)[4] + circular (scheduleStep t x.s) t + roundConstant t,
        (workingHash x)[0], rotl (workingHash x)[1] 30, (workingHash x)[2], (workingHash x)[3]] := by
  simp [workingHash, sha1Step]

/-- The feed-forward, word by word (R66). -/
theorem addHash_workingHash (hin : Hash) (x : Working) :
    addHash hin (workingHash x) = #v[hin[0] + x.a, hin[1] + x.b, hin[2] + x.c, hin[3] + x.d, hin[4] + x.e] := by
  apply Vector.toList_inj.1
  rw [toList_hash (addHash _ _)]
  simp [workingHash]

/-- The one equation of `compress` (R65). -/
theorem compress_eq (hin : Hash) (m : Block) :
    compress hin m = addHash hin (workingHash (sha1Steps Config.rounds (loadWorking hin m))) := by
  rw [compress]

theorem length_padMessage (before : Nat) (m : List Byte) :
    (padMessage before m).length = m.length + 1 + padZeros m.length + 8 := by
  simp [padMessage]; omega

theorem length_keyBytes (p : List Byte) : (keyBytes p).length = 64 := by
  unfold keyBytes Config.blockBytes
  split_ifs
  · simp
  · simp; omega

end Sys2Proof.Machine
end

