-- ==== Sys2Proof/Laws/HostProcedures.lean ====
section
/-! SUPPORT. What the host's runs of writes and reads leave, said once (spec/30_encoding.md R52, R53). -/

namespace Sys2Proof.Machine

/-- The words `vs` put into an array from position `j` on. -/
def overwrite {n : Nat} (x : Vector Word n) (j : Nat) (vs : List Word) : Vector Word n :=
  Vector.ofFn fun k => if j ≤ k.val then vs.getD (k.val - j) x[k] else x[k]

theorem getElem_overwrite {n : Nat} (x : Vector Word n) (j k : Nat) (vs : List Word) (hk : k < n) :
    (overwrite x j vs)[k] = if j ≤ k then vs.getD (k - j) x[k] else x[k] := by
  unfold overwrite
  rw [Vector.getElem_ofFn]; rfl

theorem overwrite_nil {n : Nat} (x : Vector Word n) (j : Nat) : overwrite x j [] = x := by
  apply Vector.ext
  intro k hk
  rw [getElem_overwrite]; simp

theorem overwrite_set {n : Nat} (x : Vector Word n) (j : Nat) (v : Word) (vs : List Word) (hj : j < n) :
    overwrite (x.set j v) (j + 1) vs = overwrite x j (v :: vs) := by
  apply Vector.ext
  intro k hk
  rw [getElem_overwrite, getElem_overwrite, Vector.getElem_set]
  by_cases h : j + 1 ≤ k
  · have hne : j ≠ k := by omega
    rw [if_neg hne, if_pos h, if_pos (by omega : j ≤ k), show k - j = k - (j + 1) + 1 by omega, List.getD_cons_succ]
  · rw [if_neg h]
    by_cases h' : j = k
    · subst h'; simp
    · rw [if_neg h', if_neg (by omega)]

theorem overwrite_toList {n : Nat} (x y : Vector Word n) : overwrite x 0 y.toList = y := by
  apply Vector.ext
  intro k hk
  rw [getElem_overwrite]; simp [List.getD, hk]

/-- A run of writes to one register array, from a law about one write to it. -/
theorem performAll_writeArray {n : Nat} (base : Nat) (get : State → Vector Word n) (put : State → Vector Word n → State)
    (get_put : ∀ s x, get (put s x) = x) (put_put : ∀ s x y, put (put s x) y = put s y) (put_get : ∀ s, put s (get s) = s)
    (idle : ∀ s x, (put s x).status = s.status)
    (write : ∀ s j (h : j < n) v, s.status.busy = false →
      perform (.write (BitVec.ofNat 7 (base + j)) v) s = .next (put s ((get s).set j v)))
    (vs : List Word) (j : Nat) (s : State) (hb : s.status.busy = false) (hl : j + vs.length ≤ n) :
    performAll (writeArray (base + j) vs) s = .next (put s (overwrite (get s) j vs)) := by
  induction vs generalizing j s with
  | nil => rw [overwrite_nil, put_get]; rfl
  | cons v vs ih =>
    simp only [List.length_cons] at hl
    rw [writeArray, performAll, write s j (by omega) v hb]
    show performAll (writeArray (base + j + 1) vs) _ = _
    rw [Nat.add_assoc, ih (j + 1) _ (by rw [idle, hb]) (by omega), get_put, put_put, overwrite_set]

/-- A run of writes, listed by index. -/
theorem writeArray_eq_map (base : Nat) (vs : List Word) :
    writeArray base vs = (List.range vs.length).map fun j => .write (BitVec.ofNat 7 (base + j)) (vs.getD j 0) := by
  induction vs generalizing base with
  | nil => rfl
  | cons v vs ih =>
    rw [writeArray, ih, List.length_cons, List.range_succ_eq_map, List.map_cons, List.map_map]
    simp [Function.comp_def, Nat.add_comm 1, Nat.add_assoc]

/-- The block of a byte string is made of its first 64 bytes. -/
theorem blockOfList_take (b : List Byte) : blockOfList (b.take 64) = blockOfList b := by
  refine block_ext_bytes fun k hk => ?_
  simp only [blockOfList]
  rw [byteOf_blockOfBytes _ _ hk, byteOf_blockOfBytes _ _ hk]
  simp [List.getD, hk]

/-- `LDBLK` takes the first 64 bytes of what it is given (R53). -/
theorem ldblkMoves_take (b : List Byte) : ldblkMoves (b.take 64) = ldblkMoves b := by
  rw [ldblkMoves, blockOfList_take, ← ldblkMoves]

/-- A run of reads, from what each of them returns. -/
theorem performAll_readArray (base n : Nat) (s : State) (vals : List Word) (hv : vals.length = n)
    (h : ∀ k (hk : k < n), memRead (BitVec.ofNat 7 (base + k)) s = vals[k]) :
    performAll (readArray base n) s = .next { s with replies := s.replies ++ vals } := by
  induction n generalizing base s vals with
  | zero =>
    have hnil : vals = [] := by simpa using hv
    subst hnil; simp [readArray, performAll]
  | succ n ih =>
    match vals, hv, h with
    | v :: vs, hv, h =>
      rw [readArray, performAll, perform_read]
      show performAll (readArray (base + 1) n) _ = _
      rw [ih (base + 1) (hostRead (BitVec.ofNat 7 base) s) vs (by simpa using hv)]
      · have h0 := h 0 (by omega)
        simp only [Nat.add_zero, List.getElem_cons_zero] at h0
        simp [hostRead, h0]
      · intro k hk
        have hk' := h (k + 1) (by omega)
        rw [show base + 1 + k = base + (k + 1) by omega]
        exact hk'

/-- The last values the host has read. -/
theorem lastReplies_append (s : State) (l : List Word) (n : Nat) (hl : l.length = n) :
    lastReplies n { s with replies := s.replies ++ l } = l := by
  simp [lastReplies, hl]

/-- States with the same registers differ only in the hidden state and the model's own fields. -/
theorem eq_of_registers_eq {s t : State} (h : t.registers = s.registers) :
    ∃ hid a r k, t = { s with hidden := hid, agenda := a, replies := r, freeIndex := k } := by
  refine ⟨t.hidden, t.agenda, t.replies, t.freeIndex, ?_⟩
  cases s; cases t
  simp only [State.registers, State.visible, State.mk.injEq] at h ⊢
  simp [h]

end Sys2Proof.Machine
end

