-- ==== Sys2Proof/Laws/PerInstr.lean ====
section
/-! SUPPORT. Statements about each command as syntax. -/

namespace Sys2Proof.Laws.TableWord

/-- The encoder's word of a command, given as the table numbers it, is read back as that command (R45, R47). -/
def Statement (i : Instr) : Prop :=
  i.wellFormed = true ∧ decodeTableWord 32 (encode i).toNat = some i

theorem ldiv : Statement .ldiv := ⟨rfl, by decide⟩
theorem comp : Statement .comp := ⟨rfl, by decide⟩
theorem kdig : Statement .kdig := ⟨rfl, by decide⟩
theorem hkey : Statement .hkey := ⟨rfl, by decide⟩
theorem pblk : Statement .pblk := ⟨rfl, by decide⟩
theorem clr : Statement .clr := ⟨rfl, by decide⟩

end Sys2Proof.Laws.TableWord
end

