-- ==== Sys2Proof/Tests/Slice0.lean ====
section
/-! SUPPORT. The model's own tests: expected values are the spec's (spec/95_test_vectors.md, spec/30_encoding.md R47, R48), and
witnesses that the hypotheses of the statements can be met, at the boundaries of their ranges. -/

namespace Sys2Proof.Tests

open Sys2Proof Sys2Proof.Machine

/-! ### Small states -/

/-- The next state, if there is one. -/
def nextOf : StepOutcome → Option State
  | .next s => some s
  | .fault _ => none
  | .refused _ => none

/-- The reset state with these flags. -/
def withFlags (busy done err ctxv : Bool) (errcode : BitVec 4) : State :=
  { State.reset with status := { busy := busy, done := done, err := err, ctxv := ctxv, errcode := errcode } }

/-- A core carrying out command `i` on the registers of `s`. -/
def running (i : Instr) (s : State) : State :=
  { s with status := s.status.accepted, hidden := { s.hidden with op := opcodeOf i } }

/-- An idle core in the error state, NOCTX recorded (spec/95_test_vectors.md 5, row 5). -/
def failed : State :=
  withFlags false false true false 2

/-- An idle core that holds a context, a count and a salt length. -/
def armed (iter saltlen : Word) : State :=
  { State.reset with
    status := { busy := false, done := true, err := false, ctxv := true, errcode := 0 }
    inner := (hmacCtx State.reset.w).1
    outer := (hmacCtx State.reset.w).2
    iter := iter
    saltlen := saltlen }

/-- A core with the context of the password "password" and the salt "salt" (spec/95_test_vectors.md 3.1, 4.2). -/
def passwordSalt (blkidx iter : Word) : State :=
  { State.reset with
    status := { busy := false, done := true, err := false, ctxv := true, errcode := 0 }
    inner := #v[0x084eb10f, 0x7f3bc5b8, 0x5b6b0b41, 0x4ed50043, 0xffe71f45]
    outer := #v[0xf0bb8fe5, 0xb5a3bda6, 0x9e9ead99, 0xab1f903a, 0x885e1e9f]
    salt := #v[0x73616c74, 0, 0, 0, 0, 0, 0, 0, 0, 0, 0, 0, 0]
    saltlen := 4
    blkidx := blkidx
    iter := iter }

/-- The block of the padded message "abc" (spec/95_test_vectors.md 2.2). -/
def abcBlock : Block :=
  #v[0x61626380, 0, 0, 0, 0, 0, 0, 0, 0, 0, 0, 0, 0, 0, 0, 0x00000018]

/-! ### Well-formedness: one ill-formed term for each check -/

theorem test_wf_rejects_nonzero_upper_bits : (commandFields 0x00000102).zeroClear = false := by decide
theorem test_wf_rejects_unlisted_opcode : (commandFields 0x00000007).opcodeListed = false := by decide
theorem test_wf_rejects_opcode_zero : (commandFields 0x00000000).wellFormed = false := by decide
theorem test_wf_accepts_the_last_opcode : (commandFields 0x00000006).wellFormed = true := by decide
theorem test_wf_rejects_key_of_65_bytes : keyFitsBlock (List.replicate 65 0) = false := by decide
theorem test_wf_rejects_salt_of_52_bytes : saltFits (List.replicate 52 0) = false := by decide
theorem test_wf_rejects_zero_iterations : iterationsFit 0 = false := by decide
theorem test_wf_rejects_zero_key_length :
    (DeriveCall.mk [] [] 1 0).keyLengthFits = false := by decide
theorem test_wf_rejects_call_with_long_salt :
    (DeriveCall.mk [] (List.replicate 52 0) 1 20).wellFormed = false := by decide

/-! ### Decoding: words written out bit by bit from the table of R47, and the illegal examples of R48 -/

theorem test_decode_ldiv : decode 0b00000000000000000000000000000001 = .ok .ldiv := by decide
theorem test_decode_comp : decode 0b00000000000000000000000000000010 = .ok .comp := by decide
theorem test_decode_kdig : decode 0b00000000000000000000000000000011 = .ok .kdig := by decide
theorem test_decode_hkey : decode 0b00000000000000000000000000000100 = .ok .hkey := by decide
theorem test_decode_pblk : decode 0b00000000000000000000000000000101 = .ok .pblk := by decide
theorem test_decode_clr : decode 0b00000000000000000000000000000110 = .ok .clr := by decide
theorem test_decode_zero : decode 0x00000000 = .error .reservedOpcode := by decide
theorem test_decode_seven : decode 0x00000007 = .error .reservedOpcode := by decide
theorem test_decode_upper_bits : decode 0x00000102 = .error .nonzeroUpperBits := by decide
theorem test_decodeTableWord_pblk : decodeTableWord 32 5 = some .pblk := by decide

/-! ### Commands: at most two tests each, one step on a small state -/

/-- spec/95_test_vectors.md 5, row 2. -/
theorem test_ldiv_completes :
    (nextOf (exec .ldiv (running .ldiv State.reset))).map (fun t => (t.h, t.status.word))
      = some (#v[0x67452301, 0xefcdab89, 0x98badcfe, 0x10325476, 0xc3d2e1f0], 0x00000002) := by decide +kernel

/-- The first step after reset with LDIV put where the next command comes from: `BUSY = 1`, nothing loaded yet (R49). -/
theorem test_ldiv_first_step :
    (nextOf (step (State.reset.withFetchWord 32 1))).map (fun t => (t.status.word, t.h, t.agenda))
      = some (0x00000001, zeros 5, []) := by decide +kernel

/-- spec/95_test_vectors.md 2.2. -/
theorem test_comp_abc :
    (nextOf (exec .comp (running .comp { State.reset with h := sha1IV, w := abcBlock }))).map (fun t => (t.h, t.w))
      = some (#v[0xa9993e36, 0x4706816a, 0xba3e2571, 0x7850c26c, 0x9cd0d89d], abcBlock) := by decide +kernel

/-- spec/95_test_vectors.md 5, row 25: COMP from the reset content completes in the error state of a lost write. -/
theorem test_comp_completes_after_busywr :
    (nextOf (step (running .comp (withFlags false false true false 5)))).map (fun t => (t.h, t.status.word))
      = some (#v[0x9e1547ed, 0x57ec91c2, 0x30fa8bc8, 0xc7785a54, 0xa7efa5e3], 0x00000506) := by decide +kernel

/-- spec/95_test_vectors.md 3.4. -/
theorem test_kdig_completes :
    (nextOf (exec .kdig (running .kdig { State.reset with h := sha1IV, w := Vector.ofFn fun _ => 0xdeadbeef }))).map
        (fun t => (t.w, t.h, t.status.word))
      = some (#v[0x67452301, 0xefcdab89, 0x98badcfe, 0x10325476, 0xc3d2e1f0, 0, 0, 0, 0, 0, 0, 0, 0, 0, 0, 0], sha1IV,
          0x00000002) := by decide +kernel

/-- spec/95_test_vectors.md 3.1, the password "password". -/
theorem test_hkey_password :
    (nextOf (exec .hkey (running .hkey
        { State.reset with w := #v[0x70617373, 0x776f7264, 0, 0, 0, 0, 0, 0, 0, 0, 0, 0, 0, 0, 0, 0] }))).map
        (fun t => (t.inner, t.outer, t.status.word))
      = some (#v[0x084eb10f, 0x7f3bc5b8, 0x5b6b0b41, 0x4ed50043, 0xffe71f45],
          #v[0xf0bb8fe5, 0xb5a3bda6, 0x9e9ead99, 0xab1f903a, 0x885e1e9f], 0x0000000a) := by decide +kernel

/-- spec/95_test_vectors.md 5, row 28: ITERZ wins over SALTLEN, `DONE` and `CTXV` keep their 1. -/
theorem test_pblk_iterz_first :
    (nextOf (exec .pblk (armed 0 99))).map (fun t => t.status.word) = some 0x0000030e := by decide +kernel

/-- spec/95_test_vectors.md 4.2 and 1, vector 2: one loop iteration. -/
theorem test_pblk_two_iterations :
    (nextOf (exec .pblk (running .pblk (passwordSalt 1 2)))).map (fun t => (t.t, t.status.word))
      = some (#v[0xea6c014d, 0xc72d6f8c, 0xcd1ed92a, 0xce1d41f0, 0xd8de8957], 0x0000000a) := by decide +kernel

/-- spec/95_test_vectors.md 5, row 17: CLR is accepted in the error state, with `ERR` still shown. -/
theorem test_clr_accepted_in_error_state :
    (nextOf (exec .clr (withFlags false false true false 1))).map (fun t => t.status.word) = some 0x00000105 := by
  decide +kernel

/-- spec/95_test_vectors.md 5, row 17 after `Complete`. -/
theorem test_clr_completes :
    (nextOf (exec .clr (running .clr (passwordSalt 7 9)))).map (fun t => (t.status.word, t.inner, t.salt, t.iter))
      = some (0, zeros 5, zeros 13, 0) := by decide +kernel

/-! ### The port and the errors (spec/95_test_vectors.md 5) -/

/-- Row 5. -/
theorem test_pblk_without_context :
    (nextOf (perform (.write 0x00 5) { State.reset with iter := 1 })).map (fun t => t.status.word) = some 0x00000204 := by
  decide +kernel

/-- Rows 14 and 15: a non-zero upper bit is ILLCMD, whatever the low byte. -/
theorem test_illegal_word :
    (nextOf (perform (.write 0x00 0x00000105) State.reset)).map (fun t => t.status.word) = some 0x00000104 := by
  decide +kernel

/-- Row 11: all 32 bits of `SALTLEN` are compared. -/
theorem test_saltlen_does_not_wrap :
    (nextOf (perform (.write 0x00 5) (armed 1 0x00000103))).map (fun t => t.status.word) = some 0x0000040e := by
  decide +kernel

/-- Row 18. -/
theorem test_write_to_T :
    (nextOf (perform (.write 0x38 5) State.reset)).map (fun t => (t.status.word, t.t)) = some (0x00000604, zeros 5) := by
  decide +kernel

/-- Row 23. -/
theorem test_write_while_busy :
    (nextOf (perform (.write 0x10 1) (running .comp State.reset))).map (fun t => (t.status.word, t.w))
      = some (0x00000505, zeros 16) := by decide +kernel

/-- Row 3: a read other than of `STATUS` returns 0 while busy. -/
theorem test_read_while_busy :
    memRead 0x10 (running .hkey { State.reset with w := abcBlock }) = 0
      ∧ memRead 0x01 (running .hkey State.reset) = 0x00000001 := by decide +kernel

/-! ### The functions (spec/95_test_vectors.md 2.1, 3, 4.1) -/

theorem test_rotl_wraps : rotl 0x80000000 1 = 0x00000001 ∧ rotl 0x12345678 30 = 0x048d159e := by decide
theorem test_round_constants : roundConstant 19 = 0x5a827999 ∧ roundConstant 20 = 0x6ed9eba1
    ∧ roundConstant 59 = 0x8f1bbcdc ∧ roundConstant 60 = 0xca62c1d6 := by decide
theorem test_schedule_word_16 : scheduleWord abcBlock 16 = 0xc2c4c700 ∧ scheduleWord abcBlock 79 = 0x822e0879 := by
  decide +kernel
theorem test_firstBlock_straddles_words :
    firstBlock #v[0x61626364, 0x65ffffff, 0, 0, 0, 0, 0, 0, 0, 0, 0, 0, 0] 5 0x01020304
      = #v[0x61626364, 0x65010203, 0x04800000, 0, 0, 0, 0, 0, 0, 0, 0, 0, 0, 0, 0, 0x00000248] := by decide +kernel
theorem test_digestBlock_iv :
    digestBlock sha1IV = #v[0x67452301, 0xefcdab89, 0x98badcfe, 0x10325476, 0xc3d2e1f0, 0x80000000, 0, 0, 0, 0, 0, 0, 0, 0, 0,
      0x000002a0] := by decide +kernel

/-- The counter-vector of spec/90_conflicts.md C7 is not what the rules give. -/
theorem test_length_field_counts_the_key_block :
    (firstBlock #v[0x73616c74, 0, 0, 0, 0, 0, 0, 0, 0, 0, 0, 0, 0] 4 1)[15] = 0x00000240 := by decide +kernel

/-- spec/95_test_vectors.md 2.4: 65 times the byte 0x78, two blocks. -/
theorem test_sha1_of_two_blocks :
    sha1 (List.replicate 65 0x78) = #v[0x78c741dd, 0xc482e4cd, 0xf8c474a0, 0x876347a0, 0x905b6233] := by decide +kernel

/-- Two clauses of a statement about the port never claim one index: every index has exactly one class (R10, R22). -/
theorem test_index_classes_are_disjoint :
    ∀ k : Fin 128,
      ([k.val == 0x00, k.val == 0x01, k.val == 0x02, k.val == 0x03, k.val == 0x04, 0x10 ≤ k.val && k.val ≤ 0x1F,
        0x20 ≤ k.val && k.val ≤ 0x24, 0x28 ≤ k.val && k.val ≤ 0x2C, 0x30 ≤ k.val && k.val ≤ 0x34, 0x38 ≤ k.val && k.val ≤ 0x3C,
        0x40 ≤ k.val && k.val ≤ 0x4C,
        (0x05 ≤ k.val && k.val ≤ 0x0F) || (0x25 ≤ k.val && k.val ≤ 0x27) || (0x2D ≤ k.val && k.val ≤ 0x2F)
          || (0x35 ≤ k.val && k.val ≤ 0x37) || (0x3D ≤ k.val && k.val ≤ 0x3F) || 0x4D ≤ k.val].countP id) = 1 := by
  decide +kernel

/-! ### Witnesses: hypotheses that can be met -/

theorem witness_DecodeAndEncodeAgree :
    Instr.wellFormed .ldiv = true ∧ Instr.wellFormed .clr = true ∧ decode 0x00000006 = .ok .clr := by decide

theorem witness_IllegalCommandRaisesIllcmd :
    ((0 : Word).toNat = 0 ∧ 6 < (7 : Word).toNat ∧ 6 < (0x102 : Word).toNat ∧ 6 < (0xFFFFFFFF : Word).toNat)
      ∧ State.reset.status.busy = false ∧ State.reset.status.err = false := by decide

theorem witness_port_states :
    (running .comp State.reset).status.busy = true ∧ State.reset.status.busy = false := by decide

/-- First and last element of every register array (HostReadReturnsMappedRegister, HostWriteStoresOrRaises). -/
theorem witness_port_array_bounds :
    (0x10 : SlotIndex).toNat = 0x10 + (0 : Fin 16) ∧ (0x1F : SlotIndex).toNat = 0x10 + (15 : Fin 16)
      ∧ (0x20 : SlotIndex).toNat = 0x20 + (0 : Fin 5) ∧ (0x24 : SlotIndex).toNat = 0x20 + (4 : Fin 5)
      ∧ (0x28 : SlotIndex).toNat = 0x28 + (0 : Fin 5) ∧ (0x2C : SlotIndex).toNat = 0x28 + (4 : Fin 5)
      ∧ (0x30 : SlotIndex).toNat = 0x30 + (0 : Fin 5) ∧ (0x34 : SlotIndex).toNat = 0x30 + (4 : Fin 5)
      ∧ (0x38 : SlotIndex).toNat = 0x38 + (0 : Fin 5) ∧ (0x3C : SlotIndex).toNat = 0x38 + (4 : Fin 5)
      ∧ (0x40 : SlotIndex).toNat = 0x40 + (0 : Fin 13) ∧ (0x4C : SlotIndex).toNat = 0x40 + (12 : Fin 13)
      ∧ (0x00 : SlotIndex).toNat = 0x00 ∧ (0x01 : SlotIndex).toNat = 0x01 ∧ (0x02 : SlotIndex).toNat = 0x02
      ∧ (0x03 : SlotIndex).toNat = 0x03 ∧ (0x04 : SlotIndex).toNat = 0x04 := by decide

theorem witness_reserved_bounds :
    ReservedIndex 0x05 ∧ ReservedIndex 0x0F ∧ ReservedIndex 0x25 ∧ ReservedIndex 0x27 ∧ ReservedIndex 0x2D ∧ ReservedIndex 0x2F
      ∧ ReservedIndex 0x35 ∧ ReservedIndex 0x37 ∧ ReservedIndex 0x3D ∧ ReservedIndex 0x3F ∧ ReservedIndex 0x4D
      ∧ ReservedIndex 0x7F := by
  simp only [ReservedIndex]; and_intros <;> decide

theorem witness_read_only_bounds :
    ReadOnlyIndex 0x01 ∧ ReadOnlyIndex 0x28 ∧ ReadOnlyIndex 0x2C ∧ ReadOnlyIndex 0x30 ∧ ReadOnlyIndex 0x34
      ∧ ReadOnlyIndex 0x38 ∧ ReadOnlyIndex 0x3C := by
  simp only [ReadOnlyIndex]; and_intros <;> decide

/-- WrittenWordIsReadBackAndOthersKept. -/
theorem witness_writable_bounds :
    State.reset.status.busy = false ∧ HostWritable 0x02 ∧ HostWritable 0x04 ∧ HostWritable 0x10 ∧ HostWritable 0x1F
      ∧ HostWritable 0x20 ∧ HostWritable 0x24 ∧ HostWritable 0x40 ∧ HostWritable 0x4C ∧ (0x03 : SlotIndex) ≠ 0x02 := by
  simp only [HostWritable]; and_intros <;> decide

theorem witness_DispatchChecksInOrder_error_state :
    failed.status.busy = false ∧ failed.status.err = true ∧ (0x00000106 : Word) ≠ 0x00000006 := by decide

theorem witness_DispatchChecksInOrder_illegal :
    State.reset.status.err = false ∧ (0x00000106 : Word).extractLsb' 8 24 ≠ 0
      ∧ ((0x00000007 : Word).extractLsb' 0 8).toNat ∉ [1, 2, 3, 4, 5, 6] := by decide

theorem witness_DispatchChecksInOrder_pblk :
    State.reset.status.ctxv = false
      ∧ ((armed 0 0).status.ctxv = true ∧ (armed 0 0).iter = 0)
      ∧ ((armed 1 52).status.ctxv = true ∧ (armed 1 52).iter ≠ 0 ∧ 51 < (armed 1 52).saltlen.toNat)
      ∧ ((armed 1 51).status.ctxv = true ∧ (armed 1 51).iter ≠ 0 ∧ (armed 1 51).saltlen.toNat ≤ 51)
      ∧ (armed 1 51).status.err = false ∧ (armed 1 51).status.busy = false ∧ (5 : Word) = encode .pblk
      ∧ (1 : Word) = encode .ldiv := by decide +kernel

theorem witness_RaiseKeepsTheFirstError : State.reset.status.err = false ∧ failed.status.err = true := by decide

/-- Each test of R123 decides some write. -/
theorem witness_FirstFailingTestChoosesTheError :
    errorOfWrite (running .comp State.reset) 0x00 6 = some .busywr ∧ errorOfWrite State.reset 0x7F 0 = some .badwr
      ∧ errorOfWrite failed 0x00 7 = none ∧ errorOfWrite State.reset 0x00 7 = some .illcmd
      ∧ errorOfWrite State.reset 0x00 5 = some .noctx ∧ errorOfWrite (armed 0 0) 0x00 5 = some .iterz
      ∧ errorOfWrite (armed 1 52) 0x00 5 = some .saltlen ∧ errorOfWrite (armed 1 51) 0x00 5 = none
      ∧ errorOfWrite State.reset 0x10 0 = none := by decide +kernel

theorem witness_ErrorStaysUntilClrOrReset :
    (∃ t, perform .engine (running .clr failed) = .next t) ∧ (running .clr failed).status.err = true
      ∧ (running .clr failed).status.busy = true ∧ (running .clr failed).hidden.op = 0x06
      ∧ (∃ t, perform .reset failed = .next t) ∧ (∃ t, perform (.read 0x01) failed = .next t) ∧ failed.status.err = true :=
  ⟨⟨_, rfl⟩, rfl, rfl, rfl, ⟨_, rfl⟩, ⟨_, rfl⟩, rfl⟩

theorem witness_ErrorStateRefusesCommands :
    failed.status.err = true ∧ failed.status.busy = false ∧ (0x00000001 : Word) ≠ 0x00000006
      ∧ (running .comp failed).status.err = true ∧ (running .comp failed).status.busy = true
      ∧ (running .comp failed).hidden.op = opcodeOf .comp := by decide

theorem witness_BusyTransactionsDoNotDisturbTheCommand :
    (running .ldiv State.reset).status.busy = true
      ∧ (∀ m ∈ [Move.read 0x01, Move.write 0x10 1, Move.write 0x00 6], isHostMove m = true)
      ∧ ∃ t, complete (running .ldiv State.reset) = .next t :=
  ⟨rfl, by decide, _, rfl⟩

/-- The clauses of the six command statements: idle, error state, and busy with the command latched. -/
theorem witness_command_clauses :
    (State.reset.status.busy = false ∧ State.reset.status.err = false)
      ∧ (failed.status.busy = false ∧ failed.status.err = true)
      ∧ ((running .ldiv State.reset).status.busy = true ∧ (running .ldiv State.reset).hidden.op = 0x01)
      ∧ ((running .comp State.reset).status.busy = true ∧ (running .comp State.reset).hidden.op = 0x02)
      ∧ ((running .kdig State.reset).status.busy = true ∧ (running .kdig State.reset).hidden.op = 0x03)
      ∧ ((running .hkey State.reset).status.busy = true ∧ (running .hkey State.reset).hidden.op = 0x04)
      ∧ ((running .pblk State.reset).status.busy = true ∧ (running .pblk State.reset).hidden.op = 0x05)
      ∧ ((running .clr State.reset).status.busy = true ∧ (running .clr State.reset).hidden.op = 0x06) := by decide

theorem witness_CommandThenWaitLeavesItsResult :
    CommandEnabled .ldiv State.reset ∧ CommandEnabled .comp State.reset ∧ CommandEnabled .kdig State.reset
      ∧ CommandEnabled .hkey State.reset ∧ CommandEnabled .pblk (armed 1 51) ∧ CommandEnabled .clr failed := by
  simp only [CommandEnabled]; decide +kernel

theorem witness_StepRunsTheDecodedCommand_host :
    let s : State := { State.reset with agenda := [.write 0x00 5, .engine] }
    s.status.busy = false ∧ s.agenda = .write 0x00 5 :: [.engine] ∧ decode 5 = .ok .pblk ∧ Instr.wellFormed .pblk = true :=
  ⟨rfl, rfl, rfl, rfl⟩

theorem witness_StepRunsTheDecodedCommand_engine :
    (running .comp State.reset).status.busy = true ∧ (running .comp State.reset).agenda = []
      ∧ latchedCommand (running .comp State.reset) = .ok .comp
      ∧ ({ running .comp State.reset with agenda := [.engine] } : State).agenda = .engine :: [] :=
  ⟨rfl, rfl, rfl, rfl⟩

theorem witness_StepsMakeTheAgendasMovesInOrder :
    ∃ t, performAll [.write 0x00 1, .read 0x01, .engine] { State.reset with agenda := [] } = .next t :=
  ⟨_, rfl⟩

/-- A state that meets the invariant with a context held and PBLK running (StepKeepsInvariantAndNeverStops,
RunEndsQuiescent). -/
theorem witness_Inv_running_pblk : (running .pblk (armed 1 51)).Inv where
  errcode_zero := by decide
  errcode_le := by decide
  busy_not_done := fun _ => rfl
  busy_latched := fun _ => ⟨.pblk, rfl⟩
  busy_pblk := fun _ _ => rfl
  context := fun _ => ⟨State.reset.w, rfl⟩
  no_context := fun h => absurd h (by decide)

/-- Commands running with no reset on the agenda: PBLK with a poll before the engine's turn and a write after it, COMP in the error
state with a dropped write before it, and CLR with nothing on the agenda. -/
theorem witness_AcceptedCommandCompletesUnlessReset :
    let s : State := { running .pblk (armed 1 51) with agenda := [.read 0x01, .engine, .write 0x10 1] }
    let s' : State := { running .comp failed with agenda := [.write 0x10 1, .engine] }
    (s.status.busy = true ∧ s.hidden.op = opcodeOf .pblk ∧ (∀ m ∈ s.agenda, m ≠ .reset) ∧ s.status.err = false
        ∧ (∀ m ∈ s.agenda.take 1, ∀ idx v, m ≠ .write idx v))
      ∧ (s'.status.busy = true ∧ s'.hidden.op = opcodeOf .comp ∧ (∀ m ∈ s'.agenda, m ≠ .reset) ∧ s'.status.err = true)
      ∧ ((running .clr failed).status.busy = true ∧ (running .clr failed).hidden.op = opcodeOf .clr
        ∧ (∀ m ∈ (running .clr failed).agenda, m ≠ .reset)) :=
  ⟨⟨rfl, rfl, by decide, rfl, by simp⟩, ⟨rfl, rfl, by decide, rfl⟩, rfl, rfl, by decide⟩

theorem witness_NothingPartialIsSeenWhileBusy :
    (running .pblk (armed 1 51)).status.busy = true ∧ isHostMove (.write 0x38 1) = true
      ∧ (running .pblk (armed 1 51)).hidden.op = opcodeOf .pblk ∧ (0x38 : SlotIndex).toNat ≠ 0x01 :=
  ⟨rfl, rfl, rfl, by decide⟩

theorem witness_OnlyHkeyClrAndResetChangeTheContext :
    ∃ t, perform .engine (running .hkey State.reset) = .next t :=
  ⟨_, rfl⟩

theorem witness_EngineWritesOnlyTheTabledRegisters :
    (∃ t, perform .engine (running .ldiv State.reset) = .next t) ∧ (running .ldiv State.reset).hidden.op ≠ 0x06
      ∧ (running .ldiv State.reset).hidden.op ≠ 0x03 ∧ (running .kdig State.reset).hidden.op ≠ 0x01
      ∧ (running .kdig State.reset).hidden.op ≠ 0x02 ∧ (running .kdig State.reset).hidden.op ≠ 0x04
      ∧ (running .kdig State.reset).hidden.op ≠ 0x05 ∧ (∃ t, perform .engine State.reset = .next t)
      ∧ State.reset.status.busy = false :=
  ⟨⟨_, rfl⟩, by decide, by decide, by decide, by decide, by decide, by decide, ⟨_, rfl⟩, rfl⟩

/-- Two states that differ in the hidden state only, an idle pair and a busy pair. -/
theorem witness_HiddenStateIsUnobservable :
    State.reset.SameToHost { State.reset with hidden := { State.reset.hidden with op := 0x05 }, freeIndex := 3 }
      ∧ (running .comp State.reset).SameToHost { running .comp State.reset with freeIndex := 3 }
      ∧ (∃ t, step State.reset = .next t)
      ∧ step { running .comp State.reset with hidden := Hidden.reset } = .fault .noLatchedCommand :=
  ⟨⟨rfl, fun h => absurd h (by decide)⟩, ⟨rfl, fun _ => rfl⟩, ⟨_, rfl⟩, rfl⟩

theorem witness_RotlMovesEachBit : 1 ≤ 1 ∧ 1 ≤ 31 ∧ 31 ≤ 31 ∧ 31 < 32 := by decide

theorem witness_BytesAndWordsCorrespondBigEndian :
    ([0x70, 0x61, 0x73, 0x73] : List Byte).length % 4 = 0 ∧ 51 < 4 * 13 := by decide

/-- spec/95_test_vectors.md 3.1: the bytes of "pass" are the word 0x70617373, both ways, its first byte in bits 31:24. -/
theorem test_bytes_of_pass_are_big_endian :
    wordsOfBytes [0x70, 0x61, 0x73, 0x73] = [0x70617373] ∧ bytesOfWords [0x70617373] = [0x70, 0x61, 0x73, 0x73]
      ∧ byteOf (#v[0x70617373] : Vector Word 1) 1 = 0x61 ∧ be64 672 = [0, 0, 0, 0, 0, 0, 0x02, 0xA0] := by decide

/-- The first and last step of each group (RoundFunctionForms, RoundConstantsOfTheFourGroups, CompressFollowsTheStepUpdate). -/
theorem witness_step_ranges :
    0 ≤ 19 ∧ 19 ≤ 19 ∧ (20 ≤ 20 ∧ 20 ≤ 39) ∧ (20 ≤ 39 ∧ 39 ≤ 39) ∧ (40 ≤ 40 ∧ 40 ≤ 59) ∧ (40 ≤ 59 ∧ 59 ≤ 59) ∧ 60 ≤ 60
      ∧ 79 ≤ 79 := by decide

theorem witness_RoundFunctionForms_bit :
    (0x00000001 : Word).getLsbD 0 = (0xFFFFFFFF : Word).getLsbD 0 ∧ (0x00000001 : Word) ≠ 0xFFFFFFFF := by decide

theorem witness_CircularBufferDeliversTheLogicalSchedule : 16 ≤ 16 ∧ 16 ≤ 79 ∧ 79 ≤ 79 := by decide

theorem witness_PaddingFillsWholeBlocksAndChains :
    62 < padZeros (List.replicate 56 (0 : Byte)).length ∧ padZeros 55 = 0 ∧ (List.replicate 64 (0 : Byte)).length = 64 := by
  decide

theorem witness_KeyBlockHashesOnlyLongPasswords :
    (List.replicate 64 (0 : Byte)).length ≤ 64 ∧ 64 < (List.replicate 65 (0 : Byte)).length := by decide

theorem witness_PadBlocksXorEveryByte : 63 < 64 := by decide

theorem witness_FirstBlockLayout : 0 ≤ 51 ∧ 51 ≤ 51 := by decide

/-- Two salt arrays that agree below the length and differ beyond it (spec/95_test_vectors.md 4.1, masking). -/
theorem witness_SaltBytesBeyondLengthAreIgnored :
    (∀ k, k < 4 → byteOf (#v[0x73616c74, 0, 0, 0, 0, 0, 0, 0, 0, 0, 0, 0, 0] : SaltBank) k
        = byteOf (#v[0x73616c74, 0x47415242, 0, 0, 0, 0, 0, 0, 0, 0, 0, 0, 0] : SaltBank) k)
      ∧ byteOf (#v[0x73616c74, 0, 0, 0, 0, 0, 0, 0, 0, 0, 0, 0, 0] : SaltBank) 4
        ≠ byteOf (#v[0x73616c74, 0x47415242, 0, 0, 0, 0, 0, 0, 0, 0, 0, 0, 0] : SaltBank) 4 := by decide +kernel

theorem witness_OutputBlockIsXorOfTheChain : 1 ≤ 1 ∧ 1 ≤ 2 ^ 32 - 1 := by decide

/-- Two cores with the same operands and different old results. -/
theorem witness_OutputBlockDependsOnlyOnItsOperands :
    let s := running .pblk (armed 1 51)
    let s' : State := { s with t := Vector.ofFn fun _ => 7 }
    s.status.busy = true ∧ s'.status.busy = true ∧ s.hidden.op = 0x05 ∧ s'.hidden.op = 0x05 ∧ s.inner = s'.inner
      ∧ s.outer = s'.outer ∧ s.salt = s'.salt ∧ s.saltlen = s'.saltlen ∧ s.iter = s'.iter ∧ s.blkidx = s'.blkidx :=
  ⟨rfl, rfl, rfl, rfl, rfl, rfl, rfl, rfl, rfl, rfl⟩

theorem witness_PrecomputedHmacEqualsTwoPass : (List.replicate 55 (0 : Byte)).length ≤ 55 := by decide

theorem witness_FirstOutputIsHmacOfSaltAndIndex : (List.replicate 51 (0 : Byte)).length ≤ 51 := by decide

/-- HostSha1LeavesTheDigest, HostKeyShortLeavesTheContext, HostKeyLongLeavesTheContext. -/
theorem witness_host_procedures :
    State.reset.Ready ∧ (List.replicate 64 (0 : Byte)).length ≤ 64 ∧ 64 < (List.replicate 65 (0 : Byte)).length :=
  ⟨⟨rfl, rfl⟩, by decide, by decide⟩

/-- The largest admitted call, and calls rejected for each reason (U3 of spec/93_implementation_defined.md among them). -/
theorem witness_HostDeriveKeyReturnsTheDerivedKey :
    State.reset.Ready
      ∧ (∃ call : DeriveCall, 1 ≤ call.iterations ∧ call.iterations ≤ 2 ^ 32 - 1 ∧ 1 ≤ call.keyLength
          ∧ (call.keyLength + 19) / 20 ≤ 2 ^ 32 - 1 ∧ call.salt.length + 4 ≤ 55)
      ∧ (∃ call : DeriveCall, call.iterations < 1) ∧ (∃ call : DeriveCall, call.keyLength < 1)
      ∧ (∃ call : DeriveCall, 55 < call.salt.length + 4) ∧ (∃ call : DeriveCall, 2 ^ 32 - 1 < call.iterations)
      ∧ ∃ call : DeriveCall, 2 ^ 32 - 1 < (call.keyLength + 19) / 20 :=
  ⟨⟨rfl, rfl⟩, ⟨.mk [] (List.replicate 51 0) (2 ^ 32 - 1) (20 * (2 ^ 32 - 1)), by decide⟩, ⟨.mk [] [] 0 1, by decide⟩,
    ⟨.mk [] [] 1 0, by decide⟩, ⟨.mk [] (List.replicate 52 0) 1 1, by decide⟩, ⟨.mk [] [] (2 ^ 32) 1, by decide⟩,
    ⟨.mk [] [] 1 (20 * (2 ^ 32 - 1) + 1), by decide⟩⟩

theorem witness_DerivedKeyLengthAndPrefix :
    1 ≤ (DeriveCall.mk [] [] 1 1).keyLength ∧ (DeriveCall.mk [] [] 1 1).keyLength < 2 := by decide

theorem witness_PseudoInstructionsExpandAsTabled :
    (List.replicate 64 (0 : Byte)).length = 64 ∧ (List.replicate 64 (0 : Byte)).length ≤ 64
      ∧ (List.replicate 51 (0 : Byte)).length ≤ 51 := by decide

/-- KeyProcedureMistakesRaiseNoError, at both boundaries. -/
theorem witness_KeyProcedureMistakesRaiseNoError :
    State.reset.Ready ∧ 64 < (List.replicate 65 (0 : Byte)).length ∧ (List.replicate 64 (0 : Byte)).length ≤ 64 :=
  ⟨⟨rfl, rfl⟩, by decide, by decide⟩

/-- R147, truncated or not: LDKEY of 88 bytes makes the sixteen writes of LDKEY of its first 64, and none past `W`. -/
theorem test_ldkey_of_88_bytes :
    ldkeyMoves (List.replicate 64 0x70 ++ List.replicate 24 0x71) = ldkeyMoves (List.replicate 64 0x70) := by decide +kernel

theorem witness_HmacThroughCompIsTwoPassHmac :
    let s : State := { State.reset with inner := (hmacCtx (keyBlock [])).1, outer := (hmacCtx (keyBlock [])).2 }
    s.Ready ∧ (List.replicate 55 (0 : Byte)).length ≤ 55 ∧ (s.inner, s.outer) = hmacCtx (keyBlock []) :=
  ⟨⟨rfl, rfl⟩, by decide, rfl⟩

end Sys2Proof.Tests
end

section
/-! PROOFS. The notation of spec/00_scope.md section 4: rotation (R6) and byte order (R7). -/

namespace Sys2Proof.Machine

/-- Bit `k` goes to bit `k + n`, and the bits shifted out on the left come back on the right (R6). -/
theorem getLsbD_rotl (x : Word) (n k : Nat) (hn : n ≤ 31) (hk : k < 32) :
    (rotl x n).getLsbD ((k + n) % 32) = x.getLsbD k := by
  by_cases hwrap : k + n < 32
  · have hright : x.getLsbD (32 - n + (k + n)) = false := BitVec.getLsbD_of_ge _ _ (by omega)
    simp [rotl, Nat.mod_eq_of_lt hwrap, hwrap, hright, BitVec.getLsbD_eq_getElem hk]
  · have hpos : (k + n) % 32 = k + n - 32 := by omega
    simp [rotl, hpos, show k + n - 32 < n by omega, show 32 - n + (k + n - 32) = k by omega]

/-- The rotation as a number: both shifts, joined and cut to 32 bits (R6). -/
theorem toNat_rotl (x : Word) (n : Nat) :
    (rotl x n).toNat = (x.toNat * 2 ^ n ||| x.toNat / 2 ^ (32 - n)) % 2 ^ 32 := by
  have hright : x.toNat / 2 ^ (32 - n) < 2 ^ 32 := (Nat.div_le_self _ _).trans_lt x.isLt
  rw [Nat.or_mod_two_pow, Nat.mod_eq_of_lt hright]
  simp [rotl, Nat.shiftLeft_eq, Nat.shiftRight_eq_div_pow]

theorem toNat_append_eq_add {v w : Nat} (x : BitVec v) (y : BitVec w) :
    (x ++ y).toNat = x.toNat * 2 ^ w + y.toNat := by
  rw [BitVec.toNat_append, ← Nat.shiftLeft_add_eq_or_of_lt y.isLt, Nat.shiftLeft_eq]

/-- R7's sum for a packed word. -/
theorem toNat_packWord (b0 b1 b2 b3 : Byte) :
    (packWord b0 b1 b2 b3).toNat = b0.toNat * 2 ^ 24 + b1.toNat * 2 ^ 16 + b2.toNat * 2 ^ 8 + b3.toNat := by
  simp only [packWord, toNat_append_eq_add]
  omega

@[simp] theorem wordsOfBytes_nil : wordsOfBytes [] = [] := rfl

@[simp] theorem wordsOfBytes_cons (b0 b1 b2 b3 : Byte) (rest : List Byte) :
    wordsOfBytes (b0 :: b1 :: b2 :: b3 :: rest) = packWord b0 b1 b2 b3 :: wordsOfBytes rest := rfl

@[simp] theorem bytesOfWords_nil : bytesOfWords [] = [] := rfl

@[simp] theorem bytesOfWords_cons (v : Word) (vs : List Word) :
    bytesOfWords (v :: vs) = be32 v ++ bytesOfWords vs := rfl

theorem be32_packWord (b0 b1 b2 b3 : Byte) : be32 (packWord b0 b1 b2 b3) = [b0, b1, b2, b3] := by
  obtain ⟨h0, h1, h2, h3⟩ := wordByte_packWord b0 b1 b2 b3
  rw [be32, h0, h1, h2, h3]

theorem wordsOfBytes_be32_append (v : Word) (rest : List Byte) :
    wordsOfBytes (be32 v ++ rest) = v :: wordsOfBytes rest := by
  simp [be32, packWord_wordByte]

theorem wordsOfBytes_bytesOfWords (x : List Word) : wordsOfBytes (bytesOfWords x) = x := by
  induction x with
  | nil => rfl
  | cons v vs ih => rw [bytesOfWords_cons, wordsOfBytes_be32_append, ih]

/-- By the recursion of `wordsOfBytes`; the length excludes a rest of one to three bytes, which it would drop. -/
theorem bytesOfWords_wordsOfBytes (b : List Byte) (hb : b.length % 4 = 0) : bytesOfWords (wordsOfBytes b) = b := by
  induction b using wordsOfBytes.induct with
  | case1 b0 b1 b2 b3 rest ih =>
    have hrest : rest.length % 4 = 0 := by simp only [List.length_cons] at hb; omega
    rw [wordsOfBytes_cons, bytesOfWords_cons, be32_packWord, ih hrest]
    rfl
  | case2 b hshort =>
    match b, hb, hshort with
    | [], _, _ => rfl
    | b0 :: b1 :: b2 :: b3 :: rest, _, hshort => exact absurd rfl (hshort b0 b1 b2 b3 rest)

theorem getElem?_bytesOfWords_toList {n : Nat} (x : Vector Word n) (k : Nat) (hk : k < 4 * n) :
    (bytesOfWords x.toList)[k]? = some (byteOf x k) := by
  have hword : k / 4 < n := by omega
  rw [getElem?_bytesOfWords _ _ (by simpa using hk), byteOf_eq x k hword]
  simp [hword]

/-- A byte of a 32-bit field of `v` is the byte of `v` that many bits higher. -/
theorem wordByte_extractLsb' (v : BitVec 64) (low j : Nat) :
    wordByte (v.extractLsb' low 32) j = v.extractLsb' (low + (24 - 8 * j)) 8 := by
  ext k hk
  simp [wordByte, show 24 - 8 * j + k < 32 by omega, Nat.add_assoc]

/-- `BE64` is `BE32` of each half, the high half first (R7). -/
theorem be64_eq_bytesOfWords_halves (v : BitVec 64) :
    be64 v = bytesOfWords [v.extractLsb' 32 32, v.extractLsb' 0 32] := by
  simp only [bytesOfWords_cons, bytesOfWords_nil, be32, wordByte_extractLsb']
  rfl

/-- Settles O33: the moved bit and the number, each by its lemma. -/
theorem rotlMovesEachBit : Obligations.RotlMovesEachBit := by
  intro x n k _ hn hk
  exact ⟨getLsbD_rotl x n k hn hk, toNat_rotl x n⟩

/-- Settles O34: one lemma per conversion; the two inverses by induction on the list of words and on the bytes, four at a time. -/
theorem bytesAndWordsCorrespondBigEndian : Obligations.BytesAndWordsCorrespondBigEndian := by
  refine ⟨toNat_packWord, wordsOfBytes_bytesOfWords, bytesOfWords_wordsOfBytes, fun _ => getElem?_bytesOfWords_toList,
    fun _ => rfl, be64_eq_bytesOfWords_halves, wordsOfBytes_nil, ?_, bytesOfWords_nil, bytesOfWords_cons,
    fun _ => rfl, fun _ => rfl, ?_⟩
  · intro b0 b1 b2 b3 rest
    exact ⟨_, wordsOfBytes_cons b0 b1 b2 b3 rest, toNat_packWord b0 b1 b2 b3, (wordByte_packWord b0 b1 b2 b3).1⟩
  · intro n x k hk
    exact byteOf_eq x k (by omega)

end Sys2Proof.Machine
end

section
/-! PROOFS. The invariant of the registers (spec/10_state.md R12, R19, R20, R26): what a host write and a store can do, then each
operation keeps the invariant. -/

namespace Sys2Proof.Machine

/-- Storing a word changes a data register only: no flag, no context and no result (R32). -/
theorem writeSlot_frame {s t : State} {v : Word} {slot : Slot} (h : writeSlot s v slot = some t) :
    t.status = s.status ∧ t.inner = s.inner ∧ t.outer = s.outer ∧ t.t = s.t := by
  cases slot <;> cases h <;> exact ⟨rfl, rfl, rfl, rfl⟩

/-- What a host write can answer: a recorded error, a stored word, nothing at all, or an accepted command (R32, R49). -/
theorem memWrite_answers (idx : SlotIndex) (v : Word) (s : State) :
    (∃ e, memWrite idx v s = .next (raiseError e s))
    ∨ (s.status.busy = false ∧ ∃ t, writeSlot s v (slotOf idx) = some t ∧ memWrite idx v s = .next t)
    ∨ (s.status.busy = false ∧ memWrite idx v s = .next s)
    ∨ (s.status.busy = false ∧ ∃ i, (s.status.err = true ∧ i = .clr ∨ s.status.err = false ∧ commandCheck i s = none)
        ∧ memWrite idx v s = .next (acceptCommand i s)) := by
  rcases memWrite_cases idx v s with ⟨-, h⟩ | ⟨hb, -, h⟩ | ⟨hb, -, t, ht, h⟩ | ⟨-, -, -, h⟩
  · exact .inl ⟨_, h⟩
  · rw [h]
    rcases dispatchWord_cases hb v with ⟨i, -, hd⟩ | ⟨-, -, hd⟩
    · rw [hd]
      rcases dispatchCommand_cases i (commandCheck i) s with ⟨-, -, hc⟩ | ⟨-, e, -, hc⟩ | ⟨hok, hc⟩
      · exact .inr (.inr (.inl ⟨hb, by rw [hc]⟩))
      · exact .inl ⟨e, by rw [hc]⟩
      · exact .inr (.inr (.inr ⟨hb, i, hok, by rw [hc]⟩))
    · exact .inl ⟨_, hd⟩
  · exact .inr (.inl ⟨hb, t, ht, h⟩)
  · exact .inl ⟨_, h⟩

@[simp] theorem latchedCommand_acceptCommand (i : Instr) (s : State) : latchedCommand (acceptCommand i s) = .ok i :=
  decodeOpcode_opcodeOf i

/-- A state with the flags, the context and the result of one that meets the invariant meets it too, if while busy the latch and
PBLK's operands are the same as well. -/
theorem State.Inv.of_same_registers {s t : State} (hs : s.Inv) (hstatus : t.status = s.status) (hinner : t.inner = s.inner)
    (houter : t.outer = s.outer) (hresult : t.t = s.t)
    (hbusy : s.status.busy = true → t.hidden = s.hidden ∧ t.iter = s.iter ∧ t.saltlen = s.saltlen) : t.Inv where
  errcode_zero := by rw [hstatus]; exact hs.errcode_zero
  errcode_le := by rw [hstatus]; exact hs.errcode_le
  busy_not_done := by rw [hstatus]; exact hs.busy_not_done
  busy_latched hb := by
    rw [hstatus] at hb
    rw [latchedCommand, (hbusy hb).1]
    exact hs.busy_latched hb
  busy_pblk hb hl := by
    rw [hstatus] at hb
    obtain ⟨hhidden, hiter, hsaltlen⟩ := hbusy hb
    rw [latchedCommand, hhidden] at hl
    rw [pblkCheck, hstatus, hiter, hsaltlen]
    exact hs.busy_pblk hb hl
  context := by rw [hstatus, hinner, houter]; exact hs.context
  no_context := by rw [hstatus, hinner, houter, hresult]; exact hs.no_context

theorem inv_hostRead {s : State} (hs : s.Inv) (idx : SlotIndex) : (hostRead idx s).Inv :=
  hs.of_same_registers rfl rfl rfl rfl fun _ => ⟨rfl, rfl, rfl⟩

theorem inv_with_agenda {s : State} (hs : s.Inv) (ms : List Move) : ({ s with agenda := ms } : State).Inv :=
  hs.of_same_registers rfl rfl rfl rfl fun _ => ⟨rfl, rfl, rfl⟩

/-- A store to an idle core: the clauses about a running command do not apply. -/
theorem inv_writeSlot {s t : State} (hs : s.Inv) (hb : s.status.busy = false) {v : Word} {slot : Slot}
    (h : writeSlot s v slot = some t) : t.Inv := by
  obtain ⟨hstatus, hinner, houter, hresult⟩ := writeSlot_frame h
  exact hs.of_same_registers hstatus hinner houter hresult fun hb' => by simp [hb] at hb'

/-- An error changes `ERR` and `ERRCODE` only, to a code that is not 0 and at most 6 (R120, R121). -/
theorem inv_raiseError {s : State} (hs : s.Inv) (e : CoreError) : (raiseError e s).Inv := by
  cases he : s.status.err
  case true => rwa [raiseError_of_err he]
  case false =>
    have hcode : (raiseError e s).status.errcode = errorCode e := by simp [raised_of_no_err he]
    exact
      { errcode_zero := by rw [hcode]; exact iff_of_false (by simp) (errorCode_ne_zero e)
        errcode_le := by rw [hcode]; exact errorCode_le e
        busy_not_done := by simpa using hs.busy_not_done
        busy_latched := by simpa [latchedCommand] using hs.busy_latched
        busy_pblk := by simpa [latchedCommand, pblkCheck_eq_none_iff] using hs.busy_pblk
        context := by simpa using hs.context
        no_context := by simpa using hs.no_context }

/-- Acceptance of a command whose own checks pass (R49). -/
theorem inv_acceptCommand {s : State} (hs : s.Inv) {i : Instr} (hcheck : i = .pblk → pblkCheck s = none) :
    (acceptCommand i s).Inv where
  errcode_zero := hs.errcode_zero
  errcode_le := hs.errcode_le
  busy_not_done _ := rfl
  busy_latched _ := ⟨i, latchedCommand_acceptCommand i s⟩
  busy_pblk _ hl := by
    rw [latchedCommand_acceptCommand] at hl
    exact hcheck (by injection hl)
  context := hs.context
  no_context := hs.no_context

/-- A completed command leaves an idle core, so only the clauses about the error and the context are left to show (R50). -/
theorem inv_finishCommand {u : State} (hzero : u.status.err = false ↔ u.status.errcode = 0) (hle : u.status.errcode.toNat ≤ 6)
    (hcontext : u.status.ctxv = true → ∃ k0, (u.inner, u.outer) = hmacCtx k0)
    (hnone : u.status.ctxv = false → u.inner = zeros 5 ∧ u.outer = zeros 5 ∧ u.t = zeros 5) : (finishCommand u).Inv where
  errcode_zero := hzero
  errcode_le := hle
  busy_not_done := by simp
  busy_latched := by simp
  busy_pblk := by simp
  context := hcontext
  no_context := hnone

/-- The reset state is idle, with no error and no context. -/
theorem inv_reset : State.reset.Inv where
  errcode_zero := by simp
  errcode_le := by simp
  busy_not_done := by simp
  busy_latched := by simp
  busy_pblk := by simp
  context := by simp
  no_context _ := ⟨rfl, rfl, rfl⟩

theorem inv_clearRegisters (s : State) : (clearRegisters s).Inv :=
  inv_reset.of_same_registers rfl rfl rfl rfl fun hb => by simp at hb

/-- The completion of the running command: HKEY makes the context that `CTXV` announces, and PBLK, which ran with a context, is the
only writer of `T` (R81, R97). -/
theorem inv_commandEffect {s : State} (hs : s.Inv) (hb : s.status.busy = true) {i : Instr} (ho : s.hidden.op = opcodeOf i) :
    (commandEffect i s).Inv := by
  cases i with
  | ldiv => exact inv_finishCommand hs.errcode_zero hs.errcode_le hs.context hs.no_context
  | comp => exact inv_finishCommand hs.errcode_zero hs.errcode_le hs.context hs.no_context
  | kdig => exact inv_finishCommand hs.errcode_zero hs.errcode_le hs.context hs.no_context
  | hkey => exact inv_finishCommand hs.errcode_zero hs.errcode_le (fun _ => ⟨s.w, rfl⟩) (fun h => by simp at h)
  | pblk =>
    have hlatched : latchedCommand s = .ok .pblk := by simp [latchedCommand, ho]
    obtain ⟨hctxv, -, -⟩ := (pblkCheck_eq_none_iff s).1 (hs.busy_pblk hb hlatched)
    exact inv_finishCommand hs.errcode_zero hs.errcode_le hs.context (fun h => by simp [hctxv] at h)
  | clr => exact inv_clearRegisters s

/-- A host write from a state that meets the invariant (R32, R49). -/
theorem memWrite_keeps_inv {s : State} (hs : s.Inv) (idx : SlotIndex) (v : Word) : ∃ t, memWrite idx v s = .next t ∧ t.Inv := by
  rcases memWrite_answers idx v s with ⟨e, h⟩ | ⟨hb, t, ht, h⟩ | ⟨-, h⟩ | ⟨-, i, hok, h⟩
  · exact ⟨_, h, inv_raiseError hs e⟩
  · exact ⟨t, h, inv_writeSlot hs hb ht⟩
  · exact ⟨s, h, hs⟩
  · refine ⟨_, h, inv_acceptCommand hs ?_⟩
    rintro rfl
    rcases hok with ⟨-, hclr⟩ | ⟨-, hcheck⟩
    · cases hclr
    · exact hcheck

/-- The engine's turn from a state that meets the invariant: a busy core has a command latched, so it does not stop (R50). -/
theorem complete_keeps_inv {s : State} (hs : s.Inv) : ∃ t, complete s = .next t ∧ t.Inv := by
  rcases complete_cases s with ⟨-, h⟩ | ⟨hb, i, ho, h⟩ | ⟨hb, hnone, -⟩
  · exact ⟨s, h, hs⟩
  · exact ⟨_, h, inv_commandEffect hs hb ho⟩
  · obtain ⟨i, hi⟩ := hs.busy_latched hb
    exact absurd hi (hnone i)

theorem perform_keeps_inv {s : State} (hs : s.Inv) (m : Move) : ∃ t, perform m s = .next t ∧ t.Inv := by
  cases m with
  | read idx => exact ⟨_, rfl, inv_hostRead hs idx⟩
  | write idx v => exact memWrite_keeps_inv hs idx v
  | engine => exact complete_keeps_inv hs
  | reset => exact ⟨_, rfl, inv_clearRegisters s⟩

/-- Settles O27: a step is the engine's turn or the agenda's first move, and each keeps the invariant. -/
theorem stepKeepsInvariantAndNeverStops : Obligations.StepKeepsInvariantAndNeverStops := by
  intro s hs
  cases hagenda : s.agenda with
  | nil => rw [step_nil hagenda]; exact complete_keeps_inv hs
  | cons m rest => rw [step_cons hagenda]; exact perform_keeps_inv (inv_with_agenda hs rest) m

/-- Settles O26, by the clauses of the invariant. -/
theorem resetStateMeetsInvariant : Obligations.ResetStateMeetsInvariant :=
  inv_reset

end Sys2Proof.Machine
end

section
/-! PROOFS. The register port of an idle core (spec/10_state.md R10, R12, R21, R26; spec/20_memory.md R31, R32, R35): no two
indices name the same register, and what a stored word changes. -/

namespace Sys2Proof.Machine

/-- The register index of a slot, the register map of R10 read backwards; the reserved slots have no index of their own. -/
def indexOf : Slot → Nat
  | .cmd => 0x00
  | .status => 0x01
  | .iter => 0x02
  | .blkidx => 0x03
  | .saltlen => 0x04
  | .w j => 0x10 + j
  | .h j => 0x20 + j
  | .inner j => 0x28 + j
  | .outer j => 0x30 + j
  | .t j => 0x38 + j
  | .salt j => 0x40 + j
  | .reserved => 0x7F

/-- `slot` is what the map gives `idx`: the register of that index, or nothing at a reserved one (R10, R36). -/
def MapsTo (idx : SlotIndex) (slot : Slot) : Prop :=
  (slot = .reserved ∧ ReservedIndex idx) ∨ (slot ≠ .reserved ∧ indexOf slot = idx.toNat)

/-- `iteInduction` for branches that use the condition. -/
theorem prop_dite {α : Type} {p : Prop} [Decidable p] {motive : α → Prop} {a : p → α} {b : ¬p → α} (ha : ∀ h, motive (a h))
    (hb : ∀ h, motive (b h)) : motive (dite p a b) := by
  split
  · exact ha _
  · exact hb _

/-- By the eleven tests of `slotOf`, five for one index and six for a range of them. -/
theorem mapsTo_slotOf (idx : SlotIndex) : MapsTo idx (slotOf idx) := by
  have named {slot : Slot} (hr : slot ≠ .reserved) (hi : indexOf slot = idx.toNat) : MapsTo idx slot := .inr ⟨hr, hi⟩
  unfold slotOf
  iterate 5 refine iteInduction (motive := MapsTo idx) (fun hk => named (by simp) hk.symm) fun _ => ?_
  iterate 6
    refine prop_dite (motive := MapsTo idx) (fun hk => named (by simp) (Nat.add_sub_of_le hk.1)) fun _ => ?_
  exact .inl ⟨rfl, by unfold ReservedIndex; omega⟩

theorem indexOf_slotOf {idx : SlotIndex} (h : slotOf idx ≠ .reserved) : indexOf (slotOf idx) = idx.toNat := by
  rcases mapsTo_slotOf idx with ⟨hr, -⟩ | ⟨-, hi⟩
  · exact absurd hr h
  · exact hi

/-- No two indices name the same register (R21, R35). -/
theorem slotOf_injective {idx idx' : SlotIndex} (hr : slotOf idx ≠ .reserved) (h : slotOf idx' = slotOf idx) : idx' = idx := by
  apply BitVec.eq_of_toNat_eq
  rw [← indexOf_slotOf hr, ← indexOf_slotOf (h ▸ hr), h]

/-- Every host-writable index is one at which a write stores (R32). -/
theorem exists_writeSlot {idx : SlotIndex} (hw : HostWritable idx) (s : State) (v : Word) :
    ∃ t, writeSlot s v (slotOf idx) = some t := by
  unfold HostWritable at hw
  rcases mapsTo_slotOf idx with ⟨-, hreserved⟩ | ⟨hr, hi⟩
  · unfold ReservedIndex at hreserved
    omega
  · cases hslot : slotOf idx <;> simp only [hslot, indexOf] at hi
    case iter | blkidx | saltlen | w | h | salt => exact ⟨_, rfl⟩
    case reserved => exact absurd hslot hr
    all_goals omega

theorem not_reserved_of_writeSlot {s t : State} {v : Word} {slot : Slot} (h : writeSlot s v slot = some t) : slot ≠ .reserved := by
  rintro rfl
  cases h

theorem not_cmd_of_writeSlot {s t : State} {v : Word} {slot : Slot} (h : writeSlot s v slot = some t) : slot ≠ .cmd := by
  rintro rfl
  cases h

/-- Reading while idle is reading the mapped slot, `STATUS` too (R31). -/
theorem memRead_idle {s : State} (hb : s.status.busy = false) (idx : SlotIndex) : memRead idx s = readSlot s (slotOf idx) := by
  by_cases hidx : idx = 0x01
  · subst hidx; rfl
  · rw [memRead, if_neg hidx, hb]; rfl

/-- A write that stores, made to an idle core (R32). -/
theorem memWrite_of_writeSlot {s t : State} {idx : SlotIndex} {v : Word} (hb : s.status.busy = false)
    (h : writeSlot s v (slotOf idx) = some t) : memWrite idx v s = .next t := by
  simp [memWrite, hb, not_cmd_of_writeSlot h, h]

theorem readSlot_writeSlot_same {s t : State} {v : Word} {slot : Slot} (h : writeSlot s v slot = some t) :
    readSlot t slot = v := by
  cases slot <;> cases h <;> simp [readSlot]

/-- In an array the other words are kept, and the other registers are other fields of the state (R21, R32). -/
theorem readSlot_writeSlot_other {s t : State} {v : Word} {slot slot' : Slot} (h : writeSlot s v slot = some t)
    (hne : slot' ≠ slot) : readSlot t slot' = readSlot s slot' := by
  have other {n : Nat} (x : Vector Word n) {j k : Fin n} (hk : k ≠ j) : (x.set j v)[k] = x[k] := by
    have hval : j.val ≠ k.val := fun e => hk (Fin.ext e.symm)
    simp [hval]
  cases slot <;> cases h <;> cases slot'
  case w.refl.w => exact other _ (by simpa using hne)
  case h.refl.h => exact other _ (by simpa using hne)
  case salt.refl.salt => exact other _ (by simpa using hne)
  case iter.refl.iter | blkidx.refl.blkidx | saltlen.refl.saltlen => exact absurd rfl hne
  all_goals rfl

/-- Settles O7: the slot stores the word, and another index is another slot. -/
theorem writtenWordIsReadBackAndOthersKept : Obligations.WrittenWordIsReadBackAndOthersKept := by
  intro s idx v hb hwritable
  obtain ⟨t, ht⟩ := exists_writeSlot hwritable s v
  have hbt : t.status.busy = false := by rw [(writeSlot_frame ht).1, hb]
  refine ⟨t, memWrite_of_writeSlot hb ht, ?_, fun idx' hne => ?_⟩
  · rw [memRead_idle hbt, readSlot_writeSlot_same ht]
  · rw [memRead_idle hbt, memRead_idle hb]
    exact readSlot_writeSlot_other ht fun h => hne (slotOf_injective (not_reserved_of_writeSlot ht) h)

/-- Settles O9: the number of a concatenation, bit field by bit field. -/
theorem statusWordIsSumOfFields : Obligations.StatusWordIsSumOfFields := by
  intro f
  simp only [Status.word, toNat_append_eq_add, BitVec.toNat_ofBool, BitVec.ofNat_eq_ofNat, BitVec.toNat_ofNat]
  omega

/-- In the reset state every slot reads 0 (R26). -/
theorem readSlot_reset (slot : Slot) : readSlot State.reset slot = 0 := by
  cases slot
  case status => rfl
  all_goals simp [readSlot, State.reset]

/-- Settles O23: each register of the reset state, which the reset event and CLR's completion leave too. -/
theorem resetAndClrLeaveEveryRegisterZero : Obligations.ResetAndClrLeaveEveryRegisterZero := by
  refine ⟨⟨readSlot_reset .status, readSlot_reset .iter, readSlot_reset .blkidx, readSlot_reset .saltlen,
    fun j => readSlot_reset (.salt j), fun j => readSlot_reset (.w j), fun j => readSlot_reset (.h j),
    fun j => readSlot_reset (.inner j), fun j => readSlot_reset (.outer j), fun j => readSlot_reset (.t j), fun idx => ?_⟩,
    fun s => ⟨clearRegisters s, rfl, rfl⟩, fun s hb hop => ?_⟩
  · rw [memRead_idle rfl, readSlot_reset]
  · exact ⟨_, complete_of_latched (i := .clr) hb hop, rfl⟩

end Sys2Proof.Machine
end

section
/-! PROOFS. What the engine and the host may change and see (spec/10_state.md R10, R19, R27; spec/30_encoding.md R46, R50): the frame
of each command's completion, register by register. -/

namespace Sys2Proof.Machine

/-- No command but CLR writes an input register or the error field (R46). -/
theorem commandEffect_inputs {i : Instr} (hclr : i ≠ .clr) (s : State) :
    (commandEffect i s).iter = s.iter ∧ (commandEffect i s).blkidx = s.blkidx ∧ (commandEffect i s).saltlen = s.saltlen
      ∧ (commandEffect i s).salt = s.salt ∧ (commandEffect i s).status.err = s.status.err
      ∧ (commandEffect i s).status.errcode = s.status.errcode := by
  cases i
  case clr => exact absurd rfl hclr
  all_goals exact ⟨rfl, rfl, rfl, rfl, rfl, rfl⟩

theorem commandEffect_w {i : Instr} (hclr : i ≠ .clr) (hkdig : i ≠ .kdig) (s : State) : (commandEffect i s).w = s.w := by
  cases i
  case clr => exact absurd rfl hclr
  case kdig => exact absurd rfl hkdig
  all_goals rfl

theorem commandEffect_h {i : Instr} (hclr : i ≠ .clr) (hldiv : i ≠ .ldiv) (hcomp : i ≠ .comp) (s : State) :
    (commandEffect i s).h = s.h := by
  cases i
  case clr => exact absurd rfl hclr
  case ldiv => exact absurd rfl hldiv
  case comp => exact absurd rfl hcomp
  all_goals rfl

theorem commandEffect_context {i : Instr} (hclr : i ≠ .clr) (hhkey : i ≠ .hkey) (s : State) :
    (commandEffect i s).inner = s.inner ∧ (commandEffect i s).outer = s.outer
      ∧ (commandEffect i s).status.ctxv = s.status.ctxv := by
  cases i
  case clr => exact absurd rfl hclr
  case hkey => exact absurd rfl hhkey
  all_goals exact ⟨rfl, rfl, rfl⟩

theorem commandEffect_t {i : Instr} (hclr : i ≠ .clr) (hpblk : i ≠ .pblk) (s : State) : (commandEffect i s).t = s.t := by
  cases i
  case clr => exact absurd rfl hclr
  case pblk => exact absurd rfl hpblk
  all_goals rfl

@[simp] theorem commandEffect_agenda (i : Instr) (s : State) : (commandEffect i s).agenda = s.agenda := by
  simp [commandEffect_eq]

@[simp] theorem commandEffect_replies (i : Instr) (s : State) : (commandEffect i s).replies = s.replies := by
  simp [commandEffect_eq]

/-- Settles O31: the running command's frame, register by register, read off its opcode in the latch. -/
theorem engineWritesOnlyTheTabledRegisters : Obligations.EngineWritesOnlyTheTabledRegisters := by
  intro s t ht
  rw [perform_engine] at ht
  rcases complete_cases s with ⟨-, h⟩ | ⟨hb, i, ho, h⟩ | ⟨-, -, h⟩ <;> rw [h] at ht <;> cases ht
  · exact ⟨fun _ => rfl, fun _ => ⟨rfl, rfl, rfl, rfl, rfl, rfl, fun _ => rfl, fun _ _ => rfl, fun _ => ⟨rfl, rfl, rfl⟩,
      fun _ => rfl⟩, rfl, rfl⟩
  · have command_ne {j : Instr} (hj : s.hidden.op ≠ opcodeOf j) : i ≠ j := fun hij => hj (hij ▸ ho)
    refine ⟨fun hidle => by simp [hb] at hidle, fun hop => ?_, commandEffect_agenda i s, commandEffect_replies i s⟩
    have hclr : i ≠ .clr := command_ne hop
    obtain ⟨hiter, hblkidx, hsaltlen, hsalt, herr, herrcode⟩ := commandEffect_inputs hclr s
    exact ⟨hiter, hblkidx, hsaltlen, hsalt, herr, herrcode, fun h3 => commandEffect_w hclr (command_ne h3) s,
      fun h1 h2 => commandEffect_h hclr (command_ne h1) (command_ne h2) s,
      fun h4 => commandEffect_context hclr (command_ne h4) s, fun h5 => commandEffect_t hclr (command_ne h5) s⟩

/-- No host write changes the context or its flag (R19). -/
theorem memWrite_keeps_context {idx : SlotIndex} {v : Word} {s t : State} (h : memWrite idx v s = .next t) :
    t.inner = s.inner ∧ t.outer = s.outer ∧ t.status.ctxv = s.status.ctxv := by
  rcases memWrite_answers idx v s with ⟨e, ha⟩ | ⟨-, u, hu, ha⟩ | ⟨-, ha⟩ | ⟨-, i, -, ha⟩ <;> rw [ha] at h <;> cases h
  · exact ⟨rfl, rfl, raised_ctxv s.status e⟩
  · obtain ⟨hstatus, hinner, houter, -⟩ := writeSlot_frame hu
    exact ⟨hinner, houter, by rw [hstatus]⟩
  · exact ⟨rfl, rfl, rfl⟩
  · exact ⟨rfl, rfl, rfl⟩

/-- Settles O30: by the kind of move; of the engine's completions only those of HKEY and CLR are left. -/
theorem onlyHkeyClrAndResetChangeTheContext : Obligations.OnlyHkeyClrAndResetChangeTheContext := by
  intro s t m ht
  cases m with
  | read idx => cases ht; exact .inl ⟨rfl, rfl, rfl⟩
  | write idx v => exact .inl (memWrite_keeps_context ht)
  | reset => exact .inr (.inl rfl)
  | engine =>
    rw [perform_engine] at ht
    rcases complete_cases s with ⟨-, h⟩ | ⟨hb, i, ho, h⟩ | ⟨-, -, h⟩ <;> rw [h] at ht <;> cases ht
    · exact .inl ⟨rfl, rfl, rfl⟩
    · by_cases hhkey : i = .hkey
      · subst hhkey; exact .inr (.inr ⟨rfl, hb, .inl ho⟩)
      · by_cases hclr : i = .clr
        · subst hclr; exact .inr (.inr ⟨rfl, hb, .inr ho⟩)
        · exact .inl (commandEffect_context hclr hhkey s)

/-- While busy a host transaction is a read, which adds to the returned values, or a dropped write, which records an error
(R31, R32). -/
theorem perform_host_busy {s : State} (hb : s.status.busy = true) {m : Move} (hm : isHostMove m = true) :
    (∃ idx, perform m s = .next (hostRead idx s)) ∨ perform m s = .next (raiseError .busywr s) := by
  cases m with
  | read idx => exact .inl ⟨idx, rfl⟩
  | write idx v => exact .inr (memWrite_busy hb idx v)
  | engine => cases hm
  | reset => cases hm

/-- Settles O29: neither kind of host transaction touches the command, and its results appear in the one step that ends it. -/
theorem nothingPartialIsSeenWhileBusy : Obligations.NothingPartialIsSeenWhileBusy := by
  intro s hb
  refine ⟨fun m hm => ?_, fun i ho => ⟨_, complete_of_latched hb ho, rfl, commandResult_busy i s⟩⟩
  have reads_zero {t : State} (ht : t.status.busy = true) (idx : SlotIndex) (hidx : idx.toNat ≠ 0x01) : memRead idx t = 0 :=
    memRead_busy ht fun h => hidx (by rw [h]; rfl)
  rcases perform_host_busy hb hm with ⟨idx, h⟩ | h
  · exact ⟨_, h, rfl, rfl, hb, rfl, rfl, reads_zero hb⟩
  · have hbusy : (raiseError .busywr s).status.busy = true := by simp [hb]
    exact ⟨_, h, rfl, rfl, hbusy, raised_done _ _, raised_ctxv _ _, reads_zero hbusy⟩

end Sys2Proof.Machine
end

section
/-! PROOFS. The hidden engine state is unobservable (spec/10_state.md R24): every operation is followed on a state and on the same
state with another hidden part. -/

namespace Sys2Proof.Machine

/-- A word that is no command raises ILLCMD in an idle core, which in the error state changes nothing (R48, R49). -/
theorem dispatchWord_of_error {s : State} (hb : s.status.busy = false) {v : Word} {e : DecodeError} (hd : decode v = .error e) :
    dispatchWord v s = .next (raiseError .illcmd s) := by
  rcases dispatchWord_cases hb v with ⟨i, hi, -⟩ | ⟨-, -, h⟩
  · rw [hd] at hi; cases hi
  · exact h

/-- `s` with another hidden state and counter: the form `UpToHidden` gives a state. -/
def State.withHidden (s : State) (hid : Hidden) (k : Nat) : State :=
  { s with hidden := hid, freeIndex := k }

/-- Two answers no host can tell apart. -/
def SameAnswers : StepOutcome → StepOutcome → Prop
  | .next t, .next t' => t.SameToHost t'
  | .fault r, .fault r' => r = r'
  | .refused r, .refused r' => r = r'
  | _, _ => False

theorem exists_next_of_sameAnswers {t : State} {answer : StepOutcome} (h : SameAnswers (.next t) answer) :
    ∃ t', answer = .next t' ∧ t.SameToHost t' := by
  cases answer with
  | next t' => exact ⟨t', rfl, h⟩
  | fault r => exact h.elim
  | refused r => exact h.elim

theorem eq_fault_of_sameAnswers {r : Fault} {answer : StepOutcome} (h : SameAnswers (.fault r) answer) :
    answer = .fault r := by
  cases answer with
  | next t => exact h.elim
  | fault r' => exact congrArg Host.Outcome.fault (Eq.symm h)
  | refused r' => exact h.elim

/-- States no host can tell apart differ in the hidden part only, and not in the latch of a busy core. -/
theorem State.SameToHost.exists_withHidden {s s' : State} (h : s.SameToHost s') :
    ∃ hid k, s' = s.withHidden hid k ∧ (s.status.busy = true → s.hidden.op = hid.op) := by
  obtain ⟨hvisible, hop⟩ := h
  refine ⟨s'.hidden, s'.freeIndex, ?_, hop⟩
  cases s; cases s'
  simp only [State.visible, State.withHidden, State.mk.injEq] at hvisible ⊢
  simp [hvisible]

@[simp] theorem withHidden_status (s : State) (hid : Hidden) (k : Nat) : (s.withHidden hid k).status = s.status := rfl

theorem memRead_withHidden (idx : SlotIndex) (s : State) (hid : Hidden) (k : Nat) :
    memRead idx (s.withHidden hid k) = memRead idx s := by
  have hslot (slot : Slot) : readSlot (s.withHidden hid k) slot = readSlot s slot := by cases slot <;> rfl
  simp only [memRead, hslot]
  rfl

theorem writeSlot_withHidden (s : State) (hid : Hidden) (k : Nat) (v : Word) (slot : Slot) :
    writeSlot (s.withHidden hid k) v slot = (writeSlot s v slot).map (·.withHidden hid k) := by
  cases slot <;> rfl

theorem commandCheck_withHidden (i : Instr) (s : State) (hid : Hidden) (k : Nat) :
    commandCheck i (s.withHidden hid k) = commandCheck i s := by
  cases i <;> rfl

theorem sameToHost_writeSlot {s t : State} {v : Word} {slot : Slot} (hb : s.status.busy = false)
    (ht : writeSlot s v slot = some t) (hid : Hidden) (k : Nat) : t.SameToHost (t.withHidden hid k) :=
  ⟨rfl, fun hbt => by simp [(writeSlot_frame ht).1, hb] at hbt⟩

section
variable {s : State} {hid : Hidden} (hop : s.status.busy = true → s.hidden.op = hid.op) (k : Nat)
include hop

theorem sameToHost_withHidden : s.SameToHost (s.withHidden hid k) :=
  ⟨rfl, hop⟩

theorem sameToHost_hostRead (idx : SlotIndex) : (hostRead idx s).SameToHost (hostRead idx (s.withHidden hid k)) := by
  refine ⟨?_, hop⟩
  simp only [hostRead, memRead_withHidden]
  rfl

theorem sameToHost_raiseError (e : CoreError) : (raiseError e s).SameToHost (raiseError e (s.withHidden hid k)) :=
  ⟨rfl, fun hb => hop (by simpa using hb)⟩

theorem sameToHost_dispatchCommand (i : Instr) :
    (dispatchCommand i (commandCheck i) s).SameToHost (dispatchCommand i (commandCheck i) (s.withHidden hid k)) := by
  have haccept : (acceptCommand i s).SameToHost (acceptCommand i (s.withHidden hid k)) := ⟨rfl, fun _ => rfl⟩
  simp only [dispatchCommand, commandCheck_withHidden, withHidden_status]
  split
  · split
    · exact haccept
    · exact sameToHost_withHidden hop k
  · cases commandCheck i s with
    | some e => exact sameToHost_raiseError hop k e
    | none => exact haccept

theorem sameAnswers_dispatchWord (hb : s.status.busy = false) (v : Word) :
    SameAnswers (dispatchWord v s) (dispatchWord v (s.withHidden hid k)) := by
  have hb' : (s.withHidden hid k).status.busy = false := hb
  cases hd : decode v with
  | ok i =>
    simp only [dispatchWord, hd, exec_idle hb, exec_idle hb']
    exact sameToHost_dispatchCommand hop k i
  | error e =>
    rw [dispatchWord_of_error hb hd, dispatchWord_of_error hb' hd]
    exact sameToHost_raiseError hop k .illcmd

theorem sameAnswers_memWrite (idx : SlotIndex) (v : Word) :
    SameAnswers (memWrite idx v s) (memWrite idx v (s.withHidden hid k)) := by
  cases hb : s.status.busy with
  | true =>
    rw [memWrite_busy hb, memWrite_busy (s := s.withHidden hid k) hb]
    exact sameToHost_raiseError hop k .busywr
  | false =>
    simp only [memWrite, withHidden_status, hb, writeSlot_withHidden]
    by_cases hcmd : slotOf idx = .cmd
    · simp only [hcmd]
      exact sameAnswers_dispatchWord hop k hb v
    · simp only [hcmd]
      cases hw : writeSlot s v (slotOf idx) with
      | some t => exact sameToHost_writeSlot hb hw hid k
      | none => exact sameToHost_raiseError hop k .badwr

/-- The engine's turn: the latch alone chooses the command, and no result uses the hidden state (R24, R50). -/
theorem sameAnswers_complete : SameAnswers (complete s) (complete (s.withHidden hid k)) := by
  cases hb : s.status.busy with
  | false =>
    simp only [complete, withHidden_status, hb]
    exact sameToHost_withHidden hop k
  | true =>
    have hlatch : latchedCommand (s.withHidden hid k) = latchedCommand s := by
      rw [latchedCommand, latchedCommand, hop hb]; rfl
    cases hl : latchedCommand s with
    | error e =>
      simp only [complete, withHidden_status, hb, hlatch, hl]
      rfl
    | ok i =>
      rw [complete_of_latched hb (decodeOpcode_ok hl),
        complete_of_latched (s := s.withHidden hid k) hb (decodeOpcode_ok (hlatch.trans hl))]
      exact ⟨by cases i <;> rfl, fun hbusy => by simp at hbusy⟩

theorem sameAnswers_perform (m : Move) : SameAnswers (perform m s) (perform m (s.withHidden hid k)) := by
  cases m with
  | read idx => exact sameToHost_hostRead hop k idx
  | write idx v => exact sameAnswers_memWrite hop k idx v
  | engine => exact sameAnswers_complete hop k
  | reset => exact ⟨rfl, fun hbusy => by simp at hbusy⟩

theorem sameAnswers_step : SameAnswers (step s) (step (s.withHidden hid k)) := by
  cases hagenda : s.agenda with
  | nil =>
    rw [step_nil hagenda, step_nil (s := s.withHidden hid k) hagenda]
    exact sameAnswers_complete hop k
  | cons m rest =>
    rw [step_cons hagenda, step_cons (s := s.withHidden hid k) hagenda]
    exact sameAnswers_perform (s := { s with agenda := rest }) hop k m

end

/-- Settles O32: the two answers are the same to a host, whichever kind the first one is. -/
theorem hiddenStateIsUnobservable : Obligations.HiddenStateIsUnobservable := by
  intro s s' h
  obtain ⟨hid, k, rfl, hop⟩ := h.exists_withHidden
  have hsame := sameAnswers_step hop k
  exact ⟨fun t ht => exists_next_of_sameAnswers (ht ▸ hsame), fun r hr => eq_fault_of_sameAnswers (hr ▸ hsame)⟩

end Sys2Proof.Machine
end

section
/-! PROOFS. Salt bytes past the length (spec/10_state.md R16, spec/42_pbkdf2_iteration.md R91). -/

namespace Sys2Proof.Machine

theorem firstBlock_congr {salt salt' : SaltBank} {len : Nat} (h : ∀ k, k < len → byteOf salt k = byteOf salt' k) (i : Word) :
    firstBlock salt len i = firstBlock salt' len i := by
  have hbyte : firstBlockByte salt len i = firstBlockByte salt' len i := by
    funext k
    by_cases hk : k < len
    · simp [firstBlockByte, hk, h k hk]
    · simp [firstBlockByte, hk]
  rw [firstBlock, hbyte, firstBlock]

/-- Settles O45: the salt reaches the output block through the first block only, which reads it below the length. -/
theorem saltBytesBeyondLengthAreIgnored : Obligations.SaltBytesBeyondLengthAreIgnored := by
  intro inner outer salt salt' len c i h
  rw [pbkdfBlock, pbkdfBlock, firstBlock_congr h]

end Sys2Proof.Machine
end

section
/-! PROOFS. What each index of the port reads and stores (spec/10_state.md R10, R22; spec/20_memory.md R31, R32, R36): the register
map is inverted once, and each clause is the slot of its index. -/

namespace Sys2Proof.Machine

/-- The register map answers each slot at its own index: the inverse of `indexOf_slotOf` (R10). -/
theorem slotOf_ofNat_indexOf (slot : Slot) : slotOf (BitVec.ofNat 7 (indexOf slot)) = slot := by
  cases slot
  case w j | h j | inner j | outer j | t j | salt j => revert j; decide
  all_goals rfl

theorem slotOf_of_toNat_eq_indexOf {idx : SlotIndex} {slot : Slot} (h : idx.toNat = indexOf slot) : slotOf idx = slot := by
  rw [← slotOf_ofNat_indexOf slot, ← h, BitVec.ofNat_toNat, BitVec.setWidth_eq]

/-- No register has a reserved index (R22). -/
theorem slotOf_of_reservedIndex {idx : SlotIndex} (h : ReservedIndex idx) : slotOf idx = .reserved := by
  unfold ReservedIndex at h
  rcases mapsTo_slotOf idx with ⟨hr, -⟩ | ⟨hr, hi⟩
  · exact hr
  · cases hslot : slotOf idx <;> simp only [hslot, indexOf] at hi
    case reserved => rfl
    all_goals omega

/-- A read-only index is that of `STATUS` or of a word a command produces (R10). -/
theorem slotOf_of_readOnlyIndex {idx : SlotIndex} (h : ReadOnlyIndex idx) :
    slotOf idx = .status ∨ (∃ j, slotOf idx = .inner j) ∨ (∃ j, slotOf idx = .outer j) ∨ ∃ j, slotOf idx = .t j := by
  unfold ReadOnlyIndex at h
  rcases h with h | h | h | h
  · exact .inl (slotOf_of_toNat_eq_indexOf h)
  · exact .inr (.inl ⟨⟨idx.toNat - 0x28, by omega⟩, slotOf_of_toNat_eq_indexOf (Nat.add_sub_of_le h.1).symm⟩)
  · exact .inr (.inr (.inl ⟨⟨idx.toNat - 0x30, by omega⟩, slotOf_of_toNat_eq_indexOf (Nat.add_sub_of_le h.1).symm⟩))
  · exact .inr (.inr (.inr ⟨⟨idx.toNat - 0x38, by omega⟩, slotOf_of_toNat_eq_indexOf (Nat.add_sub_of_le h.1).symm⟩))

/-- An index that stores nothing: neither `CMD` nor a data register a host may write (R32). -/
theorem slotOf_ne_cmd_and_writeSlot_eq_none {idx : SlotIndex} (h : ReadOnlyIndex idx ∨ ReservedIndex idx) (s : State) (v : Word) :
    slotOf idx ≠ .cmd ∧ writeSlot s v (slotOf idx) = none := by
  rcases h with h | h
  · rcases slotOf_of_readOnlyIndex h with hslot | ⟨j, hslot⟩ | ⟨j, hslot⟩ | ⟨j, hslot⟩ <;> rw [hslot] <;> exact ⟨by simp, rfl⟩
  · rw [slotOf_of_reservedIndex h]
    exact ⟨by simp, rfl⟩

/-- Settles O5: while idle each index reads its slot, and the other clauses are those of `memRead`. -/
theorem hostReadReturnsMappedRegister : Obligations.HostReadReturnsMappedRegister := by
  intro s idx
  refine ⟨rfl, fun h => ?_, fun hb hne => memRead_busy hb fun h => hne (by rw [h]; rfl), fun hb => ?_⟩
  · rw [show idx = 0x01 from BitVec.eq_of_toNat_eq h, memRead_status]
  have reads (slot : Slot) (h : idx.toNat = indexOf slot) : memRead idx s = readSlot s slot := by
    rw [memRead_idle hb, slotOf_of_toNat_eq_indexOf h]
  refine ⟨reads .iter, reads .blkidx, reads .saltlen, fun j => reads (.w j), fun j => reads (.h j), fun j => reads (.inner j),
    fun j => reads (.outer j), fun j => reads (.t j), fun j => reads (.salt j), ?_⟩
  rintro (h | h)
  · exact reads .cmd h
  · rw [memRead_idle hb, slotOf_of_reservedIndex h]
    rfl

/-- Settles O6: while idle each index stores in its slot, dispatches or stores nothing. -/
theorem hostWriteStoresOrRaises : Obligations.HostWriteStoresOrRaises := by
  intro s idx v
  refine ⟨fun hb => memWrite_busy hb idx v, fun hb => ?_⟩
  have stores (slot : Slot) {t : State} (ht : writeSlot s v slot = some t) (h : idx.toNat = indexOf slot) :
      perform (.write idx v) s = .next t :=
    memWrite_of_writeSlot hb (by rw [slotOf_of_toNat_eq_indexOf h, ht])
  refine ⟨fun h => ?_, stores .iter rfl, stores .blkidx rfl, stores .saltlen rfl, fun j => stores (.w j) rfl,
    fun j => stores (.h j) rfl, fun j => stores (.salt j) rfl, fun h => ?_⟩
  · simp [memWrite, hb, slotOf_of_toNat_eq_indexOf (slot := .cmd) h]
  · obtain ⟨hcmd, hnone⟩ := slotOf_ne_cmd_and_writeSlot_eq_none h s v
    simp [memWrite, hb, hcmd, hnone]

end Sys2Proof.Machine
end

section
/-! PROOFS. Steps and the agenda (spec/20_memory.md R37, spec/70_reset_and_hazards.md R150): no move reads or changes the moves still
to come, so a step on a longer agenda answers what the move answers on an empty one. -/

namespace Sys2Proof.Machine

/-- The same answer with other moves still to come. -/
def answerWithAgenda (ms : List Move) : StepOutcome → StepOutcome
  | .next t => .next { t with agenda := ms }
  | .fault r => .fault r
  | .refused r => .refused r

theorem commandEffect_with_agenda (i : Instr) (s : State) (ms : List Move) :
    commandEffect i { s with agenda := ms } = { commandEffect i s with agenda := ms } := by
  cases i <;> rfl

theorem dispatchCommand_with_agenda (i : Instr) (s : State) (ms : List Move) :
    dispatchCommand i (commandCheck i) { s with agenda := ms }
      = { dispatchCommand i (commandCheck i) s with agenda := ms } := by
  have hcheck : commandCheck i { s with agenda := ms } = commandCheck i s := by cases i <;> rfl
  simp only [dispatchCommand, hcheck]
  split
  · split <;> rfl
  · split <;> rfl

theorem exec_with_agenda (i : Instr) (s : State) (ms : List Move) :
    exec i { s with agenda := ms } = answerWithAgenda ms (exec i s) := by
  simp only [exec_eq, runCommand, commandEffect_with_agenda, dispatchCommand_with_agenda]
  split
  · split <;> rfl
  · rfl

theorem memWrite_with_agenda (idx : SlotIndex) (v : Word) (s : State) (ms : List Move) :
    memWrite idx v { s with agenda := ms } = answerWithAgenda ms (memWrite idx v s) := by
  have hwrite : writeSlot { s with agenda := ms } v (slotOf idx)
      = (writeSlot s v (slotOf idx)).map ({ · with agenda := ms }) := by
    cases slotOf idx <;> rfl
  have hdispatch : dispatchWord v { s with agenda := ms } = answerWithAgenda ms (dispatchWord v s) := by
    cases hd : decode v with
    | ok i => simp only [dispatchWord, hd, exec_with_agenda]
    | error e =>
      simp only [dispatchWord, hd]
      split <;> rfl
  simp only [memWrite, hwrite, hdispatch]
  split
  · rfl
  · split
    · rfl
    · cases writeSlot s v (slotOf idx) <;> rfl

theorem complete_with_agenda (s : State) (ms : List Move) :
    complete { s with agenda := ms } = answerWithAgenda ms (complete s) := by
  have hlatch : latchedCommand { s with agenda := ms } = latchedCommand s := rfl
  simp only [complete, hlatch, exec_with_agenda]
  split
  · split <;> rfl
  · rfl

/-- No move reads or changes the agenda. -/
theorem perform_with_agenda (m : Move) (s : State) (ms : List Move) :
    perform m { s with agenda := ms } = answerWithAgenda ms (perform m s) := by
  cases m with
  | read idx => rfl
  | write idx v => exact memWrite_with_agenda idx v s ms
  | engine => exact complete_with_agenda s ms
  | reset => rfl

theorem agenda_of_perform {m : Move} {s t : State} (h : perform m s = .next t) : t.agenda = s.agenda := by
  have hsame : Host.Outcome.next t = answerWithAgenda s.agenda (.next t) := by
    rw [← h]
    exact perform_with_agenda m s s.agenda
  rw [Host.Outcome.next.inj hsame]

/-- A step makes the first move and leaves the others to come. -/
theorem step_of_perform {m : Move} {s t : State} (h : perform m s = .next t) (rest : List Move) :
    step { s with agenda := m :: rest } = .next { t with agenda := rest } := by
  calc step { s with agenda := m :: rest }
    _ = perform m { s with agenda := rest } := step_cons rfl
    _ = answerWithAgenda rest (perform m s) := perform_with_agenda m s rest
    _ = .next { t with agenda := rest } := by rw [h]; rfl

/-- One step a move: the run makes the moves the state has been given as agenda. -/
theorem run_of_performAll {ms : List Move} {s t : State} (hs : s.agenda = []) (h : performAll ms s = .next t) :
    Host.Core.run Sys2Proof.core ms.length { s with agenda := ms } = .next t := by
  induction ms generalizing s with
  | nil =>
    change Host.Outcome.next { s with agenda := [] } = .next t
    rw [← hs]
    exact h
  | cons m rest ih =>
    rw [performAll] at h
    cases hm : perform m s with
    | next u =>
      rw [hm] at h
      rw [List.length_cons, run_of_step (step_of_perform hm rest)]
      exact ih ((agenda_of_perform hm).trans hs) h
    | fault r => rw [hm] at h; cases h
    | refused r => rw [hm] at h; cases h

/-- Settles O25: the moves are made on a state with no agenda of its own. -/
theorem stepsMakeTheAgendasMovesInOrder : Obligations.StepsMakeTheAgendasMovesInOrder :=
  fun _ s _ h => run_of_performAll (s := { s with agenda := [] }) rfl h

end Sys2Proof.Machine
end

section
/-! PROOFS. Command words (spec/30_encoding.md R45 to R48): a word is its two fields, so the encoder's words are the only ones
that decode. -/

namespace Sys2Proof

/-- The encoder's fields: the opcode under zeros (R45). -/
@[simp] theorem commandFields_encode (i : Instr) : commandFields (encode i) = { opcode := opcodeOf i, zero := 0 } := by
  unfold commandFields encode
  rw [BitVec.extractLsb'_append_eq_right, BitVec.extractLsb'_append_eq_left]

/-- A word is its two fields (R45). -/
theorem zero_append_opcode (v : Word) : (commandFields v).zero ++ (commandFields v).opcode = v := by
  calc v.extractLsb' 8 24 ++ v.extractLsb' 0 8
    _ = v.extractLsb' 0 32 := BitVec.extractLsb'_append_extractLsb'_eq_extractLsb' rfl
    _ = v := BitVec.extractLsb'_eq_self

@[simp] theorem decode_encode (i : Instr) : decode (encode i) = .ok i := by
  simp [decode, CommandFields.zeroClear]

/-- The fields of a word that decodes are those of the encoder's word (R45, R47). -/
theorem decode_eq_ok_iff {v : Word} {i : Instr} : decode v = .ok i ↔ v = encode i := by
  constructor
  · intro h
    obtain ⟨hzero, hopcode⟩ := decode_ok h
    rw [← zero_append_opcode v, hzero, hopcode, encode]
  · rintro rfl
    exact decode_encode i

theorem exists_decode_error {v : Word} (h : ∀ i, v ≠ encode i) : ∃ e, decode v = .error e := by
  cases hd : decode v with
  | ok i => exact absurd (decode_eq_ok_iff.1 hd) (h i)
  | error e => exact ⟨e, rfl⟩

/-- A table row of 32 bits is the command word itself (R45). -/
theorem decodeTableWord_toNat (v : Word) : decodeTableWord 32 v.toNat = (decode v).toOption := by
  simp [decodeTableWord, Nat.mod_eq_of_lt v.isLt, v.isLt]

theorem opcodeOf_mem (i : Instr) : (opcodeOf i).toNat ∈ [1, 2, 3, 4, 5, 6] := by
  cases i <;> decide

theorem opcodeOf_range (i : Instr) : 1 ≤ (opcodeOf i).toNat ∧ (opcodeOf i).toNat ≤ 6 := by
  cases i <;> decide

/-- Settles O2: the fields of the encoder's word, and a word that decodes is put together from its fields. -/
theorem decodeAndEncodeAgree : Obligations.DecodeAndEncodeAgree := by
  intro i _
  have hfields := commandFields_encode i
  refine ⟨decode_encode i, ?_, congrArg CommandFields.opcode hfields, congrArg CommandFields.zero hfields, ?_,
    fun v => decode_eq_ok_iff.1⟩
  · rw [decodeTableWord_toNat, decode_encode]
    rfl
  · simp [hfields, CommandFields.wellFormed, CommandFields.zeroClear, CommandFields.opcodeListed, opcodeOf_range]

/-- Settles O1: only the encoder's word decodes to a command, and it is the command's row. -/
theorem opcodeMapIsExactlySixRows : Obligations.OpcodeMapIsExactlySixRows := by
  intro v i
  rw [decode_eq_ok_iff]
  cases i <;> simp [encode, opcodeOf]

/-- Settles O3: seven closed words, by evaluation of the decoder. -/
theorem sampleWordsDecodeAsTabled : Obligations.SampleWordsDecodeAsTabled := by
  unfold Obligations.SampleWordsDecodeAsTabled
  decide

end Sys2Proof
end

section
/-! PROOFS. Dispatch of a word written to `CMD` of an idle core (spec/30_encoding.md R48, R49), and the step that makes it. -/

namespace Sys2Proof.Machine

/-- A write to `CMD` of an idle core is a `Dispatch` (R32). -/
theorem memWrite_cmd {s : State} (hb : s.status.busy = false) (v : Word) : memWrite 0x00 v s = dispatchWord v s := by
  rw [memWrite, hb, if_neg Bool.false_ne_true, if_pos (show slotOf 0x00 = .cmd from rfl)]

/-- An illegal word (R48). -/
theorem perform_write_illegal {s : State} (hb : s.status.busy = false) {v : Word} (hv : ∀ i, v ≠ encode i) :
    perform (.write 0x00 v) s = .next (raiseError .illcmd s) := by
  obtain ⟨e, he⟩ := exists_decode_error hv
  rw [perform_write, memWrite_cmd hb, dispatchWord_of_error hb he]

/-- A command word (R49). -/
theorem perform_write_encode {s : State} (hb : s.status.busy = false) (i : Instr) :
    perform (.write 0x00 (encode i)) s = .next (dispatchCommand i (commandCheck i) s) := by
  rw [perform_write, memWrite_cmd hb]
  simp [dispatchWord, exec_idle hb]

/-- In the error state every command but CLR is refused without effect (R49). -/
theorem dispatchCommand_of_err {s : State} (he : s.status.err = true) {i : Instr} (hi : i ≠ .clr)
    (check : State → Option CoreError) : dispatchCommand i check s = s := by
  simp [dispatchCommand, he, hi]

theorem dispatchCommand_of_check {s : State} (he : s.status.err = false) {i : Instr} {check : State → Option CoreError}
    {e : CoreError} (hc : check s = some e) : dispatchCommand i check s = raiseError e s := by
  simp [dispatchCommand, he, hc]

/-- PBLK is the only command with checks of its own (R49). -/
theorem commandCheck_eq_none {i : Instr} {s : State}
    (h : i = .pblk → s.status.ctxv = true ∧ s.iter ≠ 0 ∧ s.saltlen.toNat ≤ 51) : commandCheck i s = none := by
  cases i
  case pblk => exact (pblkCheck_eq_none_iff s).2 (h rfl)
  all_goals rfl

/-- A command whose conditions hold is accepted (R49). -/
theorem dispatchCommand_of_enabled {i : Instr} {s : State} (h : CommandEnabled i s) :
    dispatchCommand i (commandCheck i) s = acceptCommand i s := by
  obtain ⟨-, ⟨he, hpblk⟩ | rfl⟩ := h
  · simp [dispatchCommand, he, commandCheck_eq_none hpblk]
  · simp [dispatchCommand, commandCheck, noCheck]

theorem perform_write_of_enabled {i : Instr} {s : State} (h : CommandEnabled i s) :
    perform (.write 0x00 (encode i)) s = .next (acceptCommand i s) := by
  rw [perform_write_encode h.1, dispatchCommand_of_enabled h]

/-- Settles O4: the encoder's words are the numbers 1 to 6, so the word is none of them. -/
theorem illegalCommandRaisesIllcmd : Obligations.IllegalCommandRaisesIllcmd := by
  intro s v hv
  have hillegal (i : Instr) : v ≠ encode i := by
    rintro rfl
    have hrange := opcodeOf_range i
    rw [toNat_encode] at hv
    omega
  refine ⟨exists_decode_error hillegal, fun hb he => ?_⟩
  rw [perform_write_illegal hb hillegal, raiseError, raised_of_no_err he]
  rfl

/-- Settles O8: in the error state by whether the word is a command, otherwise check by check. -/
theorem dispatchChecksInOrder : Obligations.DispatchChecksInOrder := by
  intro s v hb
  have accepted {i : Instr} (hv : v = encode i) (h : CommandEnabled i s) :
      ∃ t, perform (.write 0x00 v) s = .next t ∧ AcceptedFrom i s t :=
    ⟨_, hv ▸ perform_write_of_enabled h, acceptCommand_acceptedFrom i s⟩
  refine ⟨fun he hne => ?_, fun _ hv => accepted (i := .clr) hv ⟨hb, .inr rfl⟩, fun he => ?_⟩
  · by_cases hv : ∃ i, v = encode i
    · obtain ⟨i, rfl⟩ := hv
      have hclr : i ≠ .clr := fun h => hne (h ▸ rfl)
      rw [perform_write_encode hb, dispatchCommand_of_err he hclr]
    · rw [perform_write_illegal hb fun i hi => hv ⟨i, hi⟩, raiseError_of_err he]
  · have pblk_fails {e : CoreError} (hv : v = encode .pblk) (hc : commandCheck .pblk s = some e) :
        perform (.write 0x00 v) s = .next (raiseError e s) := by
      rw [hv, perform_write_encode hb, dispatchCommand_of_check he hc]
    refine ⟨fun hillegal => perform_write_illegal hb ?_, fun hv hctxv => pblk_fails hv ?_,
      fun hv hctxv hiter => pblk_fails hv ?_, fun hv hctxv hiter hsaltlen => pblk_fails hv ?_,
      fun i hv hpblk => accepted hv ⟨hb, .inl ⟨he, hpblk⟩⟩⟩
    · rintro i rfl
      obtain ⟨hopcode, hzero⟩ := CommandFields.mk.inj (commandFields_encode i)
      rcases hillegal with h | h
      · exact h hzero
      · exact h (hopcode ▸ opcodeOf_mem i)
    · simp [commandCheck, pblkCheck, hctxv]
    · simp [commandCheck, pblkCheck, hctxv, hiter]
    · simpa [commandCheck, pblkCheck, hctxv, Config.maxSalt, hsaltlen] using hiter

theorem step_of_write_cmd {s : State} {v : Word} {rest : List Move} {i : Instr} (hb : s.status.busy = false)
    (hagenda : s.agenda = .write 0x00 v :: rest) (hd : decode v = .ok i) : step s = exec i { s with agenda := rest } := by
  rw [step_cons hagenda, perform_write, memWrite_cmd (s := { s with agenda := rest }) hb, dispatchWord, hd]

theorem complete_eq_exec {s : State} {i : Instr} (hb : s.status.busy = true) (hl : latchedCommand s = .ok i) :
    complete s = exec i s := by
  simp [complete, hb, hl]

/-- Settles O24: the agenda's first move is a `Dispatch` or the engine's turn, and `withFetchWord` puts such a write first. -/
theorem stepRunsTheDecodedCommand : Obligations.StepRunsTheDecodedCommand := by
  refine ⟨fun s v rest i hb hagenda hd _ => step_of_write_cmd hb hagenda hd, fun s rest i hb hagenda hl => ?_, fun s i hb => ?_⟩
  · rcases hagenda with hagenda | ⟨hagenda, rfl⟩
    · rw [step_cons hagenda, perform_engine, complete_eq_exec (s := { s with agenda := rest }) hb hl]
    · rw [step_nil hagenda, complete_eq_exec hb hl, ← hagenda]
  · have hword : BitVec.ofNat 32 ((encode i).toNat % 2 ^ 32) = encode i := by
      rw [Nat.mod_eq_of_lt (encode i).isLt, BitVec.ofNat_toNat, BitVec.setWidth_eq]
    exact step_of_write_cmd (s := s.withFetchWord 32 (encode i).toNat) (rest := s.agenda) hb rfl (by rw [hword, decode_encode])

end Sys2Proof.Machine
end

section
/-! PROOFS. The host's side (spec/30_encoding.md R52, R53): a command with its WAIT, and the expansions of the
pseudo-instructions. -/

namespace Sys2Proof.Machine

/-- Each poll returns `STATUS` and changes no register (R31). -/
theorem performAll_polls (polls : Nat) (s : State) :
    performAll (List.replicate polls (.read 0x01)) s
      = .next { s with replies := s.replies ++ List.replicate polls s.status.word } := by
  induction polls generalizing s with
  | zero => simp [performAll]
  | succ polls ih =>
    simp only [List.replicate_succ, performAll, perform_read, ih, hostRead, memRead_status, List.append_assoc,
      List.singleton_append]

/-- WAIT on a core that carries out command `i`: the engine's turn comes after the polls, and one poll more sees the end
(R50, R52). -/
theorem performAll_waitMoves {s : State} {i : Instr} (hb : s.status.busy = true) (ho : s.hidden.op = opcodeOf i) (polls : Nat) :
    performAll (waitMoves polls) s
      = .next { commandResult i s with
          replies := s.replies ++ List.replicate polls s.status.word ++ [(commandResult i s).status.word]
          hidden := hiddenAfter s
          freeIndex := s.freeIndex + 1 } := by
  rw [waitMoves, performAll_append_of_next (performAll_polls polls s)]
  have hengine := complete_of_latched
    (s := { s with replies := s.replies ++ List.replicate polls s.status.word }) hb ho
  simp only [performAll, perform_engine, perform_read, hengine]
  cases i <;> rfl

/-- `cmd!` of a command that is accepted goes on with its WAIT (R53). -/
theorem performAll_cmdMoves {i : Instr} {s : State} (h : CommandEnabled i s) (polls : Nat) :
    performAll (cmdMoves polls i) s = performAll (waitMoves polls) (acceptCommand i s) := by
  rw [cmdMoves, performAll, perform_write_of_enabled h]

/-- Settles O21: acceptance, then WAIT, whose result does not see the flags that acceptance set. -/
theorem commandThenWaitLeavesItsResult : Obligations.CommandThenWaitLeavesItsResult := by
  intro i polls s h
  have hresult : (commandResult i (acceptCommand i s)).registers = (commandResult i s).registers := by cases i <;> rfl
  have hstatus : (commandResult i (acceptCommand i s)).status = (commandResult i s).status := by cases i <;> rfl
  refine ⟨_, (performAll_cmdMoves h polls).trans (performAll_waitMoves rfl rfl polls), hresult, ?_,
    commandResult_agenda i (acceptCommand i s)⟩
  rw [hstatus]
  rfl

/-- Word `j` of a byte string that reaches so far (R7). -/
theorem getD_wordsOfBytes (b : List Byte) (j : Nat) (hj : 4 * j + 4 ≤ b.length) :
    (wordsOfBytes b).getD j 0
      = packWord (b.getD (4 * j) 0) (b.getD (4 * j + 1) 0) (b.getD (4 * j + 2) 0) (b.getD (4 * j + 3) 0) := by
  induction b using wordsOfBytes.induct generalizing j with
  | case1 b0 b1 b2 b3 rest ih =>
    cases j with
    | zero => rfl
    | succ j =>
      have hrest : 4 * j + 4 ≤ rest.length := by simp only [List.length_cons] at hj; omega
      exact ih j hrest
  | case2 b hshort =>
    match b, hj, hshort with
    | b0 :: b1 :: b2 :: b3 :: rest, _, hshort => exact absurd rfl (hshort b0 b1 b2 b3 rest)

/-- Zeros at the end of a byte string change none of the bytes that are read from it. -/
theorem getD_append_zeros (b : List Byte) (n k : Nat) : (b ++ List.replicate n 0).getD k 0 = b.getD k 0 := by
  by_cases hk : k < b.length
  · rw [List.getD_append _ _ _ _ hk]
  · rw [List.getD_append_right _ _ _ _ (by omega), List.getD_eq_default b 0 (by omega)]
    rw [List.getD_eq_getElem?_getD, List.getElem?_replicate]
    split <;> rfl

/-- Writing an array whose words are those of a list. -/
theorem writeArray_toList {n : Nat} (x : Vector Word n) (vs : List Word) (h : ∀ j (hj : j < n), x[j] = vs.getD j 0) (base : Nat) :
    writeArray base x.toList = (List.range n).map fun j => .write (BitVec.ofNat 7 (base + j)) (vs.getD j 0) := by
  rw [writeArray_eq_map, Vector.length_toList]
  refine List.map_congr_left fun j hj => ?_
  have hjn : j < n := List.mem_range.1 hj
  rw [← h j hjn]
  simp [List.getD, hjn]

theorem getElem_blockOfList {b : List Byte} (hb : b.length = 64) (j : Nat) (hj : j < 16) :
    (blockOfList b)[j] = (wordsOfBytes b).getD j 0 := by
  rw [getD_wordsOfBytes b j (by omega)]
  exact getElem_blockOfBytes _ j hj

/-- The salt words are those of the salt padded with zeros to 52 bytes (R16, R53). -/
theorem getElem_saltWords {salt : List Byte} (hs : salt.length ≤ 52) (j : Nat) (hj : j < 13) :
    (saltWords salt)[j] = (wordsOfBytes (salt ++ List.replicate (52 - salt.length) 0)).getD j 0 := by
  rw [getD_wordsOfBytes _ j (by simp; omega)]
  simp only [getD_append_zeros]
  simp [saltWords]

/-- Settles O58: LDBLK and LDSALT by the words of their arrays; the other rows are the definitions. -/
theorem pseudoInstructionsExpandAsTabled : Obligations.PseudoInstructionsExpandAsTabled := by
  refine ⟨fun b hb => writeArray_toList _ _ (getElem_blockOfList hb) 0x10, fun p _ => rfl, fun salt hs => ?_, rfl, rfl,
    fun polls i => rfl⟩
  rw [ldsaltMoves, writeArray_toList _ _ (getElem_saltWords (by omega)) 0x40]

end Sys2Proof.Machine
end

section
/-! PROOFS. The functions of one step: the round constants (spec/40_compress.md R61) and the round function in its three forms
(R62). -/

namespace Sys2Proof.Machine

/-- Settles O36: the three tests of the definition, decided by the group's bounds. -/
theorem roundConstantsOfTheFourGroups : Obligations.RoundConstantsOfTheFourGroups := by
  intro t _
  refine ⟨fun h => if_pos h, fun hlow hhigh => ?_, fun hlow hhigh => ?_, fun hlow => ?_⟩
  · rw [roundConstant, if_neg (by omega), if_pos hhigh]
  · rw [roundConstant, if_neg (by omega), if_neg (by omega), if_pos hhigh]
  · rw [roundConstant, if_neg (by omega), if_neg (by omega), if_neg (by omega)]

/-- "Choose", steps 0 to 19 (R62). -/
theorem roundFunction_choose {t : Nat} (ht : t ≤ 19) (b c d : Word) :
    roundFunction t b c d = (b &&& c) ||| (~~~b &&& d) :=
  if_pos ht

/-- "Parity", steps 20 to 39 and 60 to 79 (R62). -/
theorem roundFunction_parity {t : Nat} (ht : 20 ≤ t ∧ t ≤ 39 ∨ 60 ≤ t) (b c d : Word) :
    roundFunction t b c d = b ^^^ c ^^^ d := by
  rw [roundFunction, if_neg (by omega)]
  rcases ht with ⟨-, h39⟩ | h60
  · rw [if_pos h39]
  · rw [if_neg (by omega), if_neg (by omega)]

/-- "Majority", steps 40 to 59 (R62). -/
theorem roundFunction_majority {t : Nat} (h40 : 40 ≤ t) (h59 : t ≤ 59) (b c d : Word) :
    roundFunction t b c d = (b &&& c) ||| (b &&& d) ||| (c &&& d) := by
  rw [roundFunction, if_neg (by omega), if_neg (by omega), if_pos h59]

/-- The two terms of "choose" have no bit in common: `b` selects one of them. -/
theorem choose_terms_disjoint (b c d : Word) : (b &&& c) &&& (~~~b &&& d) = 0 := by
  ext k hk
  cases hb : b[k] <;> simp [hb]

theorem choose_eq_xor (b c d : Word) : (b &&& c) ||| (~~~b &&& d) = (b &&& c) ^^^ (~~~b &&& d) := by
  ext k hk
  cases hb : b[k] <;> simp [hb]

theorem choose_eq_xor_and (b c d : Word) : (b &&& c) ||| (~~~b &&& d) = d ^^^ (b &&& (c ^^^ d)) := by
  ext k hk
  cases hb : b[k] <;> cases hd : d[k] <;> simp [hb, hd]

theorem majority_eq_or_and (b c d : Word) : (b &&& c) ||| (b &&& d) ||| (c &&& d) = (b &&& c) ||| (d &&& (b ||| c)) := by
  ext k hk
  cases hb : b[k] <;> cases hd : d[k] <;> simp [hb, hd]

/-- The round function is bitwise, form by form (R62). -/
theorem getLsbD_roundFunction_congr {b b' c c' d d' : Word} {k : Nat} (hb : b.getLsbD k = b'.getLsbD k)
    (hc : c.getLsbD k = c'.getLsbD k) (hd : d.getLsbD k = d'.getLsbD k) (t : Nat) :
    (roundFunction t b c d).getLsbD k = (roundFunction t b' c' d').getLsbD k := by
  have hforms : t ≤ 19 ∨ (20 ≤ t ∧ t ≤ 39 ∨ 60 ≤ t) ∨ (40 ≤ t ∧ t ≤ 59) := by omega
  rcases hforms with h | h | ⟨h40, h59⟩
  · simp [roundFunction_choose h, hb, hc, hd]
  · simp [roundFunction_parity h, hb, hc, hd]
  · simp [roundFunction_majority h40 h59, hb, hc, hd]

/-- Settles O35: each form on its range, and its equal forms by the bits. -/
theorem roundFunctionForms : Obligations.RoundFunctionForms := by
  intro t b c d _
  refine ⟨fun h => ?_, fun h => roundFunction_parity h b c d, fun h40 h59 => ?_, ?_, ?_, ?_,
    fun b' c' d' k hb hc hd => getLsbD_roundFunction_congr hb hc hd t⟩
  · rw [roundFunction_choose h]
    exact ⟨rfl, choose_eq_xor_and b c d, choose_eq_xor b c d,
      (BitVec.add_eq_or_of_and_eq_zero _ _ (choose_terms_disjoint b c d)).symm⟩
  · rw [roundFunction_majority h40 h59]
    exact ⟨rfl, majority_eq_or_and b c d⟩
  · rw [roundFunction_choose (by decide), show (0xFFFFFFFF : Word) = BitVec.allOnes 32 from rfl, BitVec.allOnes_and,
      BitVec.not_allOnes, BitVec.zero_and, BitVec.or_zero]
  · rw [roundFunction_choose (by decide), choose_eq_xor_and]
    simp
  · rw [roundFunction_majority (by decide) (by decide), majority_eq_or_and]
    ext k hk
    cases hb : b[k] <;> simp [hb]

end Sys2Proof.Machine
end

section
/-! PROOFS. The message schedule (spec/40_compress.md R63, R64, R67): the circular buffer holds the sixteen newest words of the
logical schedule at every step. -/

namespace Sys2Proof.Machine

/-- A longer schedule begins with the words of a shorter one (R64). -/
theorem getD_reverse_scheduleWords (m : Block) {k t : Nat} (hk : k ≤ 64) (ht : t < 16 + k) :
    (scheduleWords m k).reverse.getD t 0 = scheduleWord m t := by
  induction hk using Nat.decreasingInduction with
  | self => rfl
  | of_succ k _ ih =>
    rw [← ih (by omega), scheduleWords, List.reverse_cons, List.getD_append]
    rw [List.length_reverse, length_scheduleWords]
    exact ht

/-- The newest word first: entry `j` of a list of `16 + k` words. -/
theorem getD_scheduleWords (m : Block) {k j : Nat} (hk : k ≤ 64) (hj : j < 16 + k) :
    (scheduleWords m k).getD j 0 = scheduleWord m (15 + k - j) := by
  rw [← getD_reverse_scheduleWords m hk (by omega), List.getD_reverse _ (by rw [length_scheduleWords]; omega), length_scheduleWords]
  congr 1
  omega

/-- The first sixteen words are those of the block (R64). -/
theorem scheduleWord_of_lt (m : Block) {t : Nat} (ht : t < 16) : scheduleWord m t = m[t] := by
  rw [← getD_reverse_scheduleWords m (Nat.zero_le 64) ht]
  simp [scheduleWords, List.getD, ht]

/-- The recurrence (R64). -/
theorem scheduleWord_add_sixteen (m : Block) {t : Nat} (ht : t < 64) :
    scheduleWord m (t + 16)
      = rotl (scheduleWord m (t + 13) ^^^ scheduleWord m (t + 8) ^^^ scheduleWord m (t + 2) ^^^ scheduleWord m t) 1 := by
  have hold {j : Nat} (hj : j ≤ 15) : (scheduleWords m t).getD j 0 = scheduleWord m (t + (15 - j)) := by
    rw [getD_scheduleWords m (by omega) (by omega)]
    congr 1
    omega
  have hnew := getD_scheduleWords m (k := t + 1) (j := 0) (by omega) (by omega)
  rw [scheduleWords, List.getD_cons_zero, hold (by decide), hold (by decide), hold (by decide), hold (by decide)] at hnew
  rw [show t + 16 = 15 + (t + 1) - 0 by omega, ← hnew]
  rfl

theorem scheduleWord_recurrence (m : Block) {t : Nat} (h16 : 16 ≤ t) (h79 : t ≤ 79) :
    scheduleWord m t
      = rotl (scheduleWord m (t - 3) ^^^ scheduleWord m (t - 8) ^^^ scheduleWord m (t - 14) ^^^ scheduleWord m (t - 16)) 1 := by
  obtain ⟨t, rfl⟩ := Nat.exists_eq_add_of_le' h16
  exact scheduleWord_add_sixteen m (by omega)

/-- Before step `t` the buffer holds the sixteen newest words: `w_0, ..., w_15` up to step 16, then `w_(t-16), ..., w_(t-1)`
(R63, R64). -/
def HoldsSchedule (m : Block) (t : Nat) (buf : Block) : Prop :=
  ∀ k, k < 16 ∨ k < t → t ≤ k + 16 → circular buf k = scheduleWord m k

theorem holdsSchedule_zero (m : Block) : HoldsSchedule m 0 m := by
  intro k hk _
  have hk16 : k < 16 := by omega
  rw [scheduleWord_of_lt m hk16]
  simp only [circular, Nat.mod_eq_of_lt hk16]

/-- Step `t` puts `w_t` where `w_(t-16)` was (R63). -/
theorem holdsSchedule_scheduleStep {m buf : Block} {t : Nat} (h : HoldsSchedule m t buf) (ht : t ≤ 79) :
    HoldsSchedule m (t + 1) (scheduleStep t buf) := by
  intro k hnew hold
  by_cases h16 : 16 ≤ t
  · rw [scheduleStep, if_pos h16, circular_set]
    by_cases hslot : k % 16 = t % 16
    · have hkt : k = t := by omega
      have hoverwritten : circular buf t = circular buf (t - 16) := by
        simp only [circular, Nat.mod_eq_sub_mod h16]
      subst hkt
      rw [if_pos hslot, hoverwritten, h (k - 3) (by omega) (by omega), h (k - 8) (by omega) (by omega),
        h (k - 14) (by omega) (by omega), h (k - 16) (by omega) (by omega), ← scheduleWord_recurrence m h16 ht]
    · rw [if_neg hslot]
      have hne : k ≠ t := fun e => hslot (e ▸ rfl)
      exact h k (by omega) (by omega)
  · rw [scheduleStep, if_neg h16]
    exact h k (by omega) (by omega)

theorem holdsSchedule_sha1Steps (hin : Hash) (m : Block) {t : Nat} (ht : t ≤ 80) :
    HoldsSchedule m t (sha1Steps t (loadWorking hin m)).s := by
  induction t with
  | zero => exact holdsSchedule_zero m
  | succ t ih => exact holdsSchedule_scheduleStep (ih (by omega)) (by omega)

/-- `SchedWord(t)` is `w_t` (R63, R64). -/
theorem circular_scheduleStep_sha1Steps (hin : Hash) (m : Block) {t : Nat} (ht : t ≤ 79) :
    circular (scheduleStep t (sha1Steps t (loadWorking hin m)).s) t = scheduleWord m t :=
  holdsSchedule_scheduleStep (holdsSchedule_sha1Steps hin m (by omega)) ht t (by omega) (by omega)

/-- Settles O37: by what the buffer holds before each step, and after the last. -/
theorem circularBufferDeliversTheLogicalSchedule : Obligations.CircularBufferDeliversTheLogicalSchedule := by
  intro hin m
  refine ⟨fun t => scheduleWord_of_lt m t.isLt, fun t h16 h79 => scheduleWord_recurrence m h16 h79,
    fun t ht => circular_scheduleStep_sha1Steps hin m ht, fun j => ?_⟩
  rw [← holdsSchedule_sha1Steps hin m le_rfl (64 + j) (by omega) (by omega)]
  have hslot : (64 + j.val) % 16 = j := by omega
  simp only [circular, hslot]
  rfl

/-- The two structures agree after every step (R67). -/
theorem stepsByWords_eq_workingHash (hin : Hash) (m : Block) {t : Nat} (ht : t ≤ 80) :
    stepsByWords hin m t = workingHash (sha1Steps t (loadWorking hin m)) := by
  induction t with
  | zero => exact (workingHash_loadWorking hin m).symm
  | succ t ih =>
    rw [sha1Steps, workingHash_sha1Step, circular_scheduleStep_sha1Steps hin m (by omega), ← ih (by omega)]
    rfl

/-- Settles O38: the feed-forward is the same after equal steps. -/
theorem fullScheduleVariantIsBitIdentical : Obligations.FullScheduleVariantIsBitIdentical := by
  intro hin m
  rw [compressByWords, stepsByWords_eq_workingHash hin m (t := Config.rounds) le_rfl, compress_eq]

end Sys2Proof.Machine
end

section
/-! PROOFS. The compression (spec/40_compress.md R65, R66), the padding and the chaining of blocks (R68, R78). -/

namespace Sys2Proof.Machine

/-- The compression of the zero state and the zero block (R65). -/
theorem compress_zeros :
    compress (Vector.ofFn fun _ => 0) (Vector.ofFn fun _ => 0)
      = #v[0x9e1547ed, 0x57ec91c2, 0x30fa8bc8, 0xc7785a54, 0xa7efa5e3] := by
  decide +kernel

/-- The digest of "abc", one block (R65). -/
theorem compress_abc :
    compress sha1IV #v[0x61626380, 0, 0, 0, 0, 0, 0, 0, 0, 0, 0, 0, 0, 0, 0, 0x00000018]
      = #v[0xa9993e36, 0x4706816a, 0xba3e2571, 0x7850c26c, 0x9cd0d89d] := by
  decide +kernel

/-- Settles O39: the start and the steps are the definitions', and the end is the feed-forward. -/
theorem compressFollowsTheStepUpdate : Obligations.CompressFollowsTheStepUpdate := by
  refine ⟨compress_zeros, compress_abc, fun hin m => ⟨rfl, workingHash_loadWorking hin m, fun t _ => ?_, ?_⟩⟩
  · exact ⟨rfl, rfl, rfl, rfl, rfl, rfl⟩
  · rw [compress_eq]
    exact addHash_workingHash hin _

/-- The padding of a string that starts with a whole block is that block and the padding of the rest (R68, R78). -/
theorem padMessage_append {b : List Byte} (hb : b.length = 64) (before : Nat) (m : List Byte) :
    padMessage before (b ++ m) = b ++ padMessage (before + 64) m := by
  have hzeros : padZeros (64 + m.length) = padZeros m.length := by unfold padZeros; omega
  simp only [padMessage, List.append_assoc, List.length_append, hb, hzeros, Nat.add_assoc]

/-- Chaining takes the first block off (R68). -/
theorem absorbBlocks_succ_append {b : List Byte} (hb : b.length = 64) (r : Nat) (h : Hash) (p : List Byte) :
    absorbBlocks (r + 1) h (b ++ p) = absorbBlocks r (compress h (blockOfList b)) p := by
  rw [absorbBlocks, Config.blockBytes, List.take_left' hb, List.drop_left' hb]

/-- Settles O40: the lengths are arithmetic modulo 64, and the padded string is a block more than the padding of its rest. -/
theorem paddingFillsWholeBlocksAndChains : Obligations.PaddingFillsWholeBlocksAndChains := by
  refine ⟨fun before m => ⟨?_, length_padMessage before m, fun z hz => ?_⟩, fun h before b m hb => ?_⟩
  · rw [length_padMessage, padZeros]
    omega
  · unfold padZeros at hz
    omega
  · have hblocks : (b ++ padMessage (before + 64) m).length / Config.blockBytes
        = (padMessage (before + 64) m).length / Config.blockBytes + 1 := by
      rw [List.length_append, hb, Nat.add_comm]
      exact Nat.add_div_right _ (by decide)
    rw [sha1From, padMessage_append hb, hblocks, absorbBlocks_succ_append hb, sha1From]

end Sys2Proof.Machine
end

section
/-! PROOFS. The commands LDIV and COMP (spec/40_compress.md R70, R71) and the host procedure HostSha1 (R72). -/

namespace Sys2Proof.Machine

theorem exec_of_enabled {i : Instr} {s : State} (h : CommandEnabled i s) : ∃ t, exec i s = .next t ∧ AcceptedFrom i s t :=
  ⟨_, by rw [exec_idle h.1, dispatchCommand_of_enabled h], acceptCommand_acceptedFrom i s⟩

theorem exec_of_err {i : Instr} {s : State} (hb : s.status.busy = false) (he : s.status.err = true) (hclr : i ≠ .clr) :
    exec i s = .next s := by
  rw [exec_idle hb, dispatchCommand_of_err he hclr]

theorem exec_of_latched {i : Instr} {s : State} (hb : s.status.busy = true) (ho : s.hidden.op = opcodeOf i) :
    ∃ t, exec i s = .next t ∧ UpToHidden (commandResult i s) t :=
  ⟨_, exec_busy hb ho, _, _, commandEffect_eq i s⟩

/-- The life of a command with no conditions of its own: accepted, refused in the error state, dropped while busy, completed
(R49, R32, R50). -/
theorem command_life {i : Instr} (hpblk : i ≠ .pblk) (hclr : i ≠ .clr) (s : State) :
    (s.status.busy = false → s.status.err = false → ∃ t, exec i s = .next t ∧ AcceptedFrom i s t)
      ∧ (s.status.busy = false → s.status.err = true → exec i s = .next s)
      ∧ (s.status.busy = true → perform (.write 0x00 (encode i)) s = .next (raiseError .busywr s))
      ∧ (s.status.busy = true → s.hidden.op = opcodeOf i → ∃ t, exec i s = .next t ∧ UpToHidden (commandResult i s) t) :=
  ⟨fun hb he => exec_of_enabled ⟨hb, .inl ⟨he, fun h => absurd h hpblk⟩⟩, fun hb he => exec_of_err hb he hclr,
    fun hb => memWrite_busy hb 0x00 (encode i), exec_of_latched⟩

/-- Settles O15: the constants are those of the initial state (R60). -/
theorem ldivLoadsTheInitialState : Obligations.LdivLoadsTheInitialState :=
  ⟨decode_encode .ldiv, command_life (i := .ldiv) (by decide) (by decide)⟩

/-- Settles O16: the result in the table of R46 is the compression of `H` and `W`. -/
theorem compCompressesTheBlock : Obligations.CompCompressesTheBlock :=
  ⟨decode_encode .comp, command_life (i := .comp) (by decide) (by decide)⟩

/-- A host write to word `j` of `W` (R17, R32). -/
theorem perform_write_w {s : State} (hb : s.status.busy = false) {j : Nat} (hj : j < 16) (v : Word) :
    perform (.write (BitVec.ofNat 7 (0x10 + j)) v) s = .next { s with w := s.w.set j v } := by
  refine memWrite_of_writeSlot hb ?_
  rw [show slotOf (BitVec.ofNat 7 (0x10 + j)) = .w ⟨j, hj⟩ from slotOf_ofNat_indexOf (.w ⟨j, hj⟩)]
  rfl

/-- LDBLK leaves its block in `W` (R53). -/
theorem performAll_ldblkMoves {s : State} (hb : s.status.busy = false) (b : List Byte) :
    performAll (ldblkMoves b) s = .next { s with w := blockOfList b } := by
  have hwrites := performAll_writeArray 0x10 State.w (fun s x => { s with w := x }) (fun _ _ => rfl) (fun _ _ _ => rfl)
    (fun _ => rfl) (fun _ _ => rfl) (fun _ _ hj v hb => perform_write_w hb hj v) (blockOfList b).toList 0 s hb (by simp)
  rw [overwrite_toList] at hwrites
  exact hwrites

/-- LDBLK and COMP: one block of a hashed string is absorbed into `H` (R72). -/
theorem performAll_absorbBlock {s : State} (hready : s.Ready) (polls : Nat) (b : List Byte) :
    ∃ t, performAll (ldblkMoves b ++ cmdMoves polls .comp) s = .next t
      ∧ t.registers
          = { s.registers with h := compress s.h (blockOfList b), w := blockOfList b, status := s.status.completed } := by
  obtain ⟨hb, he⟩ := hready
  obtain ⟨t, ht, hregisters, -⟩ :=
    commandThenWaitLeavesItsResult .comp polls { s with w := blockOfList b } ⟨hb, .inl ⟨he, nofun⟩⟩
  exact ⟨t, (performAll_append_of_next (performAll_ldblkMoves hb b) _).trans ht, hregisters⟩

/-- The loop of HostSha1, on a core that has just completed a command, so that `STATUS` is the same after every block (R72). -/
theorem performAll_absorbMoves (polls : Nat → Nat) (r : Nat) (p : List Byte) {s : State} (he : s.status.err = false)
    (hcompleted : s.status.completed = s.status) :
    ∃ t, performAll (absorbMoves polls r p) s = .next t
      ∧ t.registers = { s.registers with h := absorbBlocks r s.h p, w := t.w } := by
  induction r generalizing s p with
  | zero => exact ⟨s, rfl, rfl⟩
  | succ r ih =>
    have hready : s.Ready := ⟨hcompleted ▸ rfl, he⟩
    obtain ⟨u, hu, huregisters⟩ := performAll_absorbBlock hready (polls (r + 3)) (p.take Config.blockBytes)
    have hustatus : u.status = s.status := (congrArg State.status huregisters).trans hcompleted
    have huh : u.h = compress s.h (blockOfList (p.take Config.blockBytes)) := congrArg State.h huregisters
    obtain ⟨t, ht, htregisters⟩ := ih (p.drop Config.blockBytes) (hustatus ▸ he) (hustatus ▸ hcompleted)
    refine ⟨t, (performAll_append_of_next hu _).trans ht, ?_⟩
    rw [htregisters, huregisters, huh, hcompleted]
    rfl

/-- Settles O51: LDIV leaves the initial state, and the loop absorbs the blocks of the padded message into it. -/
theorem hostSha1LeavesTheDigest : Obligations.HostSha1LeavesTheDigest := by
  intro s polls m ⟨hb, he⟩
  obtain ⟨u, hu, huregisters, -⟩ := commandThenWaitLeavesItsResult .ldiv (polls 2) s ⟨hb, .inl ⟨he, nofun⟩⟩
  have hustatus : u.status = s.status.completed := congrArg State.status huregisters
  have huh : u.h = sha1IV := congrArg State.h huregisters
  obtain ⟨t, ht, htregisters⟩ :=
    performAll_absorbMoves polls ((padMessage 0 m).length / Config.blockBytes) (padMessage 0 m) (s := u)
      (by rw [hustatus]; exact he) (by rw [hustatus]; rfl)
  refine ⟨t, (performAll_append_of_next hu _).trans ht, ?_⟩
  rw [htregisters, huregisters, huh]
  rfl

end Sys2Proof.Machine
end

section
/-! PROOFS. The commands KDIG and HKEY (spec/41_hmac_precompute.md R80, R81): the shared life of a command with the result the
table of R46 gives it. -/

namespace Sys2Proof.Machine

/-- The key block of a password that is hashed first: the five words of its digest, then eleven zero words (R75, R80). -/
def digestKeyBlock (digest : Hash) : Block :=
  Vector.ofFn fun j => if h : j.val < 5 then digest[j.val] else 0

theorem getElem_digestKeyBlock (digest : Hash) (j : Nat) (hj : j < 16) :
    (digestKeyBlock digest)[j] = if h : j < 5 then digest[j] else 0 := by
  rw [digestKeyBlock, Vector.getElem_ofFn]

/-- KDIG's result in the table of R46 (R80). -/
theorem commandResult_kdig_w (s : State) : (commandResult .kdig s).w = digestKeyBlock s.h := rfl

/-- Settles O17: KDIG's result in the table of R46, word by word. -/
theorem kdigMakesKeyBlockFromDigest : Obligations.KdigMakesKeyBlockFromDigest := by
  refine ⟨decode_encode .kdig, fun s => ?_⟩
  obtain ⟨haccept, hrefuse, hdrop, hcomplete⟩ := command_life (i := .kdig) (by decide) (by decide) s
  refine ⟨haccept, hrefuse, hdrop, fun hb ho => ?_⟩
  obtain ⟨t, ht, hresult⟩ := hcomplete hb ho
  have hw : t.w = digestKeyBlock s.h := by
    obtain ⟨_, _, rfl⟩ := hresult
    exact commandResult_kdig_w s
  refine ⟨t, ht, fun j => ?_, fun j hj => ?_, by rw [hw]; exact hresult⟩
  · rw [hw, getElem_digestKeyBlock, dif_pos j.isLt]
  · rw [hw]
    exact (getElem_digestKeyBlock _ _ j.isLt).trans (dif_neg (by omega))

/-- Settles O18: HKEY's result in the table of R46 is the context of `W`, with the pad words written out. -/
theorem hkeyDerivesTheContext : Obligations.HkeyDerivesTheContext :=
  ⟨decode_encode .hkey, command_life (i := .hkey) (by decide) (by decide)⟩

end Sys2Proof.Machine
end

section
/-! PROOFS. Key block, pad blocks and HMAC (spec/41_hmac_precompute.md R75 to R78, R84): blocks are compared byte by byte, and a
hash that has absorbed a key block goes on from the state the block leaves. -/

namespace Sys2Proof.Machine

theorem byteOf_blockOfList (b : List Byte) {k : Nat} (hk : k < 64) : byteOf (blockOfList b) k = b.getD k 0 :=
  byteOf_blockOfBytes _ k hk

/-- The bytes of the block of a 64-byte string are that string (R7). -/
theorem bytesOfWords_blockOfList {b : List Byte} (hb : b.length = 64) : bytesOfWords (blockOfList b).toList = b := by
  refine List.ext_getElem (by simp [hb]) fun k _ hk => Option.some_inj.1 ?_
  rw [← List.getElem?_eq_getElem, getElem?_bytesOfWords_toList _ k (by omega), byteOf_blockOfList b (by omega),
    List.getD_eq_getElem _ _ hk]

/-- Byte `k` of an array's byte string is its `ByteOf`, past the end too, where both are 0 (R7). -/
theorem getD_bytesOfWords_toList {n : Nat} (x : Vector Word n) (k : Nat) : (bytesOfWords x.toList).getD k 0 = byteOf x k := by
  by_cases hk : k < 4 * n
  · rw [List.getD_eq_getElem?_getD, getElem?_bytesOfWords_toList x k hk, Option.getD_some]
  · rw [List.getD_eq_default _ _ (by simp; omega), byteOf, dif_neg (by omega)]

/-- A block is made of its own bytes (R7). -/
theorem blockOfList_bytesOfWords (x : Block) : blockOfList (bytesOfWords x.toList) = x :=
  block_ext_bytes fun k hk => by rw [byteOf_blockOfList _ hk, getD_bytesOfWords_toList]

/-- Zeros at the end of a byte string do not change its block: they stand for the missing bytes. -/
theorem blockOfList_append_zeros (b : List Byte) (n : Nat) : blockOfList (b ++ List.replicate n 0) = blockOfList b :=
  block_ext_bytes fun k hk => by rw [byteOf_blockOfList _ hk, byteOf_blockOfList _ hk, getD_append_zeros]

/-- A password of at most 64 bytes is not hashed (R75). -/
theorem keyBytes_of_short {p : List Byte} (hp : p.length ≤ 64) : keyBytes p = p ++ List.replicate (64 - p.length) 0 := by
  simp [keyBytes, Config.blockBytes, Nat.not_lt.2 hp]

theorem keyBlock_of_short {p : List Byte} (hp : p.length ≤ 64) : keyBlock p = blockOfList p := by
  rw [keyBlock, keyBytes_of_short hp, blockOfList_append_zeros]

/-- The block of a digest's bytes is the digest and zeros (R75, R80). -/
theorem blockOfList_hashBytes (digest : Hash) : blockOfList (hashBytes digest) = digestKeyBlock digest := by
  refine block_ext_bytes fun k hk => ?_
  rw [byteOf_blockOfList _ hk, hashBytes, getD_bytesOfWords_toList, byteOf_eq (digestKeyBlock digest) k (by omega),
    getElem_digestKeyBlock, byteOf]
  split
  · rfl
  · simp [wordByte]

/-- A password above 64 bytes is replaced by its digest (R75). -/
theorem keyBlock_of_long {p : List Byte} (hp : 64 < p.length) : keyBlock p = digestKeyBlock (sha1 p) := by
  rw [keyBlock, keyBytes, Config.blockBytes, if_pos hp, blockOfList_append_zeros, blockOfList_hashBytes]

/-- Settles O41: a short password by its bytes, a long one by the words of its digest. -/
theorem keyBlockHashesOnlyLongPasswords : Obligations.KeyBlockHashesOnlyLongPasswords := by
  refine fun p => ⟨fun hp => ?_, fun hp => ?_⟩
  · rw [keyBlock, bytesOfWords_blockOfList (length_keyBytes p), keyBytes_of_short hp]
  · rw [keyBlock_of_long hp]
    refine ⟨fun j => ?_, fun j hj => ?_⟩
    · exact (getElem_digestKeyBlock _ _ _).trans (dif_pos j.isLt)
    · exact (getElem_digestKeyBlock _ _ j.isLt).trans (dif_neg (by omega))

/-- XOR of blocks is XOR of their bytes (R5, R7). -/
theorem byteOf_xorBlock (x y : Block) {k : Nat} (hk : k < 64) : byteOf (xorBlock x y) k = byteOf x k ^^^ byteOf y k := by
  rw [byteOf_eq _ k (by omega), byteOf_eq _ k (by omega), byteOf_eq _ k (by omega), getElem_xorBlock]
  exact BitVec.extractLsb'_xor

theorem byteOf_ipad {k : Nat} (hk : k < 64) : byteOf ipad k = 0x36 := by
  revert k; decide

theorem byteOf_opad {k : Nat} (hk : k < 64) : byteOf opad k = 0x5c := by
  revert k; decide

/-- Settles O42: the pads' words are their definition, and their 64 bytes are 0x36 and 0x5c. -/
theorem padBlocksXorEveryByte : Obligations.PadBlocksXorEveryByte := by
  refine ⟨fun j => by simp [ipad, opad], fun k0 k hk => ⟨?_, ?_⟩⟩
  · rw [byteOf_xorBlock _ _ hk, byteOf_ipad hk]
  · rw [byteOf_xorBlock _ _ hk, byteOf_opad hk]

/-- A key block's bytes XORed with one pad byte are the key block XORed with the pad (R76). -/
theorem blockOfList_map_xor {pad : Block} {b : Byte} (hpad : ∀ {k}, k < 64 → byteOf pad k = b) (p : List Byte) :
    blockOfList ((keyBytes p).map (· ^^^ b)) = xorBlock (keyBlock p) pad := by
  refine block_ext_bytes fun k hk => ?_
  have hlen : k < (keyBytes p).length := by rw [length_keyBytes]; exact hk
  rw [byteOf_xorBlock _ _ hk, hpad hk, keyBlock, byteOf_blockOfList _ hk, byteOf_blockOfList _ hk,
    List.getD_eq_getElem _ _ (by simpa using hlen), List.getElem_map, List.getD_eq_getElem _ _ hlen]

/-- Hashing a padded key and a message is hashing the message from the state the padded key leaves (R78). -/
theorem sha1_map_xor_append {pad : Block} {b : Byte} (hpad : ∀ {k}, k < 64 → byteOf pad k = b) (p m : List Byte) :
    sha1 ((keyBytes p).map (· ^^^ b) ++ m) = sha1From (compress sha1IV (xorBlock (keyBlock p) pad)) 64 m := by
  rw [sha1, paddingFillsWholeBlocksAndChains.2 _ _ _ _ (by simp [length_keyBytes]), blockOfList_map_xor hpad]

/-- The two passes are the continuations of the two hashes of the context (R78, R84). -/
theorem hmacTwoPass_eq_sha1From (p m : List Byte) :
    hmacTwoPass p m = sha1From (hmacCtx (keyBlock p)).2 64 (hashBytes (sha1From (hmacCtx (keyBlock p)).1 64 m)) := by
  rw [hmacTwoPass, sha1_map_xor_append byteOf_opad, sha1_map_xor_append byteOf_ipad, hmacCtx]

/-- After an absorbed block a message of at most 55 bytes takes one more block (R84, R90). -/
theorem sha1From_of_length_le {m : List Byte} (hm : m.length ≤ 55) (h : Hash) : sha1From h 64 m = compress h (msgBlock m) := by
  have hzeros : padZeros m.length = 55 - m.length := by unfold padZeros; omega
  have hblocks : (padMessage 64 m).length / Config.blockBytes = 1 := by
    rw [length_padMessage, hzeros, Config.blockBytes]; omega
  rw [sha1From, hblocks, absorbBlocks, absorbBlocks, Config.blockBytes, blockOfList_take, padMessage, hzeros, msgBlock,
    Config.maxMessage]

theorem toList_digestBlock (h : Hash) :
    (digestBlock h).toList = h.toList ++ [0x80000000, 0, 0, 0, 0, 0, 0, 0, 0, 0, 0x000002A0] := by
  rw [toList_hash]; rfl

/-- A digest's padded block is the message block of its 20 bytes (R92). -/
theorem msgBlock_hashBytes (h : Hash) : msgBlock (hashBytes h) = digestBlock h := by
  have hpadding : 0x80 :: (List.replicate 35 0 ++ be64 672)
      = bytesOfWords [0x80000000, 0, 0, 0, 0, 0, 0, 0, 0, 0, 0x000002A0] := by decide
  rw [msgBlock, length_hashBytes, Config.maxMessage]
  refine Eq.trans ?_ (blockOfList_bytesOfWords (digestBlock h))
  rw [toList_digestBlock, bytesOfWords, List.flatMap_append, ← bytesOfWords, ← bytesOfWords, ← hpadding, hashBytes]
  rfl

/-- For a short message each of the two continuations is one compression (R84). -/
theorem hmacTwoPass_of_length_le {m : List Byte} (hm : m.length ≤ 55) (p : List Byte) :
    hmacTwoPass p m
      = compress (hmacCtx (keyBlock p)).2 (digestBlock (compress (hmacCtx (keyBlock p)).1 (msgBlock m))) := by
  rw [hmacTwoPass_eq_sha1From, sha1From_of_length_le hm, sha1From_of_length_le (by simp), msgBlock_hashBytes]

/-- Settles O48: the hashes go on from the absorbed pads, each in one block when the message is short. -/
theorem precomputedHmacEqualsTwoPass : Obligations.PrecomputedHmacEqualsTwoPass :=
  fun p m => ⟨hmacTwoPass_eq_sha1From p m, fun hm => hmacTwoPass_of_length_le hm p⟩

end Sys2Proof.Machine
end

section
/-! PROOFS. The host procedures HostKeyShort and HostKeyLong (spec/41_hmac_precompute.md R82, R83), on passwords of any length:
they differ in the key block they leave in `W` for HKEY. -/

namespace Sys2Proof.Machine

/-- What a command leaves in the registers depends on the registers only (R46). -/
theorem registers_commandResult (i : Instr) (s : State) :
    (commandResult i s).registers = (commandResult i s.registers).registers := by
  cases i <;> rfl

theorem err_commandResult {s : State} (he : s.status.err = false) (i : Instr) : (commandResult i s).status.err = false := by
  cases i
  case clr => rfl
  all_goals exact he

/-- `cmd!` of a command other than PBLK on a core that is ready, which is ready again afterwards (R53). -/
theorem performAll_cmdMoves_of_ready {s : State} (hready : s.Ready) {i : Instr} (hpblk : i ≠ .pblk) (polls : Nat) :
    ∃ t, performAll (cmdMoves polls i) s = .next t ∧ t.Ready ∧ t.registers = (commandResult i s).registers := by
  obtain ⟨hb, he⟩ := hready
  obtain ⟨t, ht, hregisters, -⟩ :=
    commandThenWaitLeavesItsResult i polls s ⟨hb, .inl ⟨he, fun h => absurd h hpblk⟩⟩
  have hstatus : t.status = (commandResult i s).status := congrArg (·.status) hregisters
  exact ⟨t, ht, ⟨hstatus ▸ commandResult_busy i s, hstatus ▸ err_commandResult he i⟩, hregisters⟩

/-- LDKEY is LDBLK of the password, whose missing bytes are zeros already (R53). -/
theorem ldkeyMoves_eq (p : List Byte) : ldkeyMoves p = ldblkMoves p := by
  rw [ldkeyMoves, ldblkMoves, blockOfList_append_zeros, ← ldblkMoves]

/-- HostKeyShort leaves the context of the password's first 64 bytes, whatever its length (R82, R147). -/
theorem performAll_hostKeyShortMoves {s : State} (hready : s.Ready) (polls : Nat → Nat) (p : List Byte) :
    ∃ t, performAll (hostKeyShortMoves polls p) s = .next t
      ∧ t.registers = (commandResult .hkey { s with w := blockOfList p }).registers := by
  obtain ⟨hb, he⟩ := hready
  obtain ⟨t, ht, -, hregisters⟩ :=
    performAll_cmdMoves_of_ready (s := { s with w := blockOfList p }) ⟨hb, he⟩ (i := .hkey) (by decide) (polls 0)
  refine ⟨t, ?_, hregisters⟩
  rw [hostKeyShortMoves, ldkeyMoves_eq, performAll_append_of_next (performAll_ldblkMoves hb p), ht]

/-- HostKeyLong leaves the context of the password's digest, whatever its length (R83, R147). -/
theorem performAll_hostKeyLongMoves {s : State} (hready : s.Ready) (polls : Nat → Nat) (p : List Byte) :
    ∃ t, performAll (hostKeyLongMoves polls p) s = .next t
      ∧ t.registers = (commandResult .hkey { s with w := digestKeyBlock (sha1 p), h := sha1 p }).registers := by
  obtain ⟨t1, ht1, hregisters1⟩ := hostSha1LeavesTheDigest s polls p hready
  have hready1 : t1.Ready := ⟨congrArg (·.status.busy) hregisters1, (congrArg (·.status.err) hregisters1).trans hready.2⟩
  obtain ⟨t2, ht2, hready2, hregisters2⟩ := performAll_cmdMoves_of_ready hready1 (i := .kdig) (by decide) (polls 1)
  obtain ⟨t3, ht3, -, hregisters3⟩ := performAll_cmdMoves_of_ready hready2 (i := .hkey) (by decide) (polls 0)
  rw [registers_commandResult, hregisters1] at hregisters2
  rw [registers_commandResult, hregisters2] at hregisters3
  refine ⟨t3, ?_, hregisters3⟩
  rw [hostKeyLongMoves, List.append_assoc, performAll_append_of_next ht1, performAll_append_of_next ht2, ht3]

/-- Settles O52: the block of a short password is its key block. -/
theorem hostKeyShortLeavesTheContext : Obligations.HostKeyShortLeavesTheContext := by
  intro s polls p hready hp
  rw [keyBlock_of_short hp]
  exact performAll_hostKeyShortMoves hready polls p

/-- Settles O53: the digest's block is the key block of a long password. -/
theorem hostKeyLongLeavesTheContext : Obligations.HostKeyLongLeavesTheContext := by
  intro s polls p hready hp
  rw [keyBlock_of_long hp]
  exact performAll_hostKeyLongMoves hready polls p

/-- Settles O59: neither procedure looks at the length, and LDBLK takes the first 64 bytes either way. -/
theorem keyProcedureMistakesRaiseNoError : Obligations.KeyProcedureMistakesRaiseNoError := by
  intro s polls p hready
  refine ⟨fun _ => ⟨?_, ?_⟩, fun _ => performAll_hostKeyLongMoves hready polls p⟩
  · simp only [hostKeyShortMoves, ldkeyMoves_eq, ldblkMoves_take]
  · rw [blockOfList_take]
    exact performAll_hostKeyShortMoves hready polls p

end Sys2Proof.Machine
end

section
/-! PROOFS. HMAC of a short message through COMP alone (spec/41_hmac_precompute.md R84): whole register arrays read and written
over the port, and one COMP between them. -/

namespace Sys2Proof.Machine

/-- The reads of a whole register array return its words in order (R31, R52). -/
theorem performAll_readArray_toList {n : Nat} {s : State} (hb : s.status.busy = false) (x : Vector Word n) (base : Nat)
    (slot : Fin n → Slot) (hindex : ∀ j, indexOf (slot j) = base + j) (hread : ∀ j, readSlot s (slot j) = x[j]) :
    performAll (readArray base n) s = .next { s with replies := s.replies ++ x.toList } := by
  refine performAll_readArray base n s x.toList (by simp) fun k hk => ?_
  have hslot : slotOf (BitVec.ofNat 7 (base + k)) = slot ⟨k, hk⟩ := by
    rw [← slotOf_ofNat_indexOf (slot ⟨k, hk⟩), hindex]
  rw [memRead_idle hb, hslot, hread]
  simp

/-- The ten reads of the context return `INNER` and then `OUTER`, and the core stays ready (R19, R84). -/
theorem performAll_readContext {s : State} (hready : s.Ready) :
    ∃ t, performAll (readArray 0x28 5 ++ readArray 0x30 5) s = .next t ∧ t.Ready
      ∧ lastReplies 10 t = s.inner.toList ++ s.outer.toList := by
  obtain ⟨hb, he⟩ := hready
  have hinner := performAll_readArray_toList hb s.inner 0x28 .inner (fun _ => rfl) (fun _ => rfl)
  have houter := performAll_readArray_toList (s := { s with replies := s.replies ++ s.inner.toList }) hb s.outer 0x30 .outer
    (fun _ => rfl) (fun _ => rfl)
  refine ⟨_, (performAll_append_of_next hinner _).trans houter, ⟨hb, he⟩, ?_⟩
  rw [List.append_assoc]
  exact lastReplies_append s _ _ (by simp)

/-- A block written to `W` (R52). -/
theorem performAll_writeArray_w {s : State} (hb : s.status.busy = false) (x : Block) :
    performAll (writeArray 0x10 x.toList) s = .next { s with w := x } := by
  have hwrites := performAll_ldblkMoves hb (bytesOfWords x.toList)
  rwa [ldblkMoves, blockOfList_bytesOfWords] at hwrites

/-- A host write to word `j` of `H` (R18, R32). -/
theorem perform_write_h {s : State} (hb : s.status.busy = false) {j : Nat} (hj : j < 5) (v : Word) :
    perform (.write (BitVec.ofNat 7 (0x20 + j)) v) s = .next { s with h := s.h.set j v } := by
  refine memWrite_of_writeSlot hb ?_
  rw [show slotOf (BitVec.ofNat 7 (0x20 + j)) = .h ⟨j, hj⟩ from slotOf_ofNat_indexOf (.h ⟨j, hj⟩)]
  rfl

/-- A hash state written to `H` (R52). -/
theorem performAll_writeArray_h {s : State} (hb : s.status.busy = false) (x : Hash) :
    performAll (writeArray 0x20 x.toList) s = .next { s with h := x } := by
  have hwrites := performAll_writeArray 0x20 State.h (fun s x => { s with h := x }) (fun _ _ => rfl) (fun _ _ _ => rfl)
    (fun _ => rfl) (fun _ _ => rfl) (fun _ _ hj v hb => perform_write_h hb hj v) x.toList 0 s hb (by simp)
  rw [overwrite_toList] at hwrites
  exact hwrites

/-- Moves that load `H` and `W`, then COMP and RDH: the host reads the compression, and the core is ready again (R71, R84). -/
theorem performAll_load_comp_rdh {load : List Move} {s : State} {h : Hash} {x : Block}
    (hload : performAll load s = .next { s with h := h, w := x }) (hready : s.Ready) (polls : Nat) :
    ∃ t, performAll (load ++ cmdMoves polls .comp ++ rdhMoves) s = .next t ∧ t.Ready
      ∧ lastReplies 5 t = (compress h x).toList := by
  obtain ⟨t, ht, hready', hregisters⟩ :=
    performAll_cmdMoves_of_ready (s := { s with h := h, w := x }) hready (i := .comp) (by decide) polls
  have hh : t.h = compress h x := congrArg (·.h) hregisters
  have hread := performAll_readArray_toList hready'.1 t.h 0x20 .h (fun _ => rfl) (fun _ => rfl)
  refine ⟨_, (performAll_append_of_next ((performAll_append_of_next hload _).trans ht) _).trans hread, hready', ?_⟩
  rw [lastReplies_append _ _ _ (by simp), hh]

/-- R84's procedure returns the HMAC value of the context the core holds, in two compressions. -/
theorem hostHmac_eq {s : State} (hready : s.Ready) (polls : Nat → Nat) (m : List Byte) :
    ∃ t, hostHmac polls m s = some ((compress s.outer (digestBlock (compress s.inner (msgBlock m)))).toList, t) := by
  obtain ⟨s1, hs1, hready1, hcontext⟩ := performAll_readContext hready
  obtain ⟨s2, hs2, hready2, hinner⟩ :=
    performAll_load_comp_rdh
      ((performAll_append_of_next (performAll_writeArray_h hready1.1 s.inner) _).trans
        (performAll_writeArray_w (s := { s1 with h := s.inner }) hready1.1 (msgBlock m))) hready1 (polls 0)
  obtain ⟨s3, hs3, -, houter⟩ :=
    performAll_load_comp_rdh
      ((performAll_append_of_next (performAll_writeArray_w hready2.1 (digestBlock (compress s.inner (msgBlock m)))) _).trans
        (performAll_writeArray_h (s := { s2 with w := digestBlock (compress s.inner (msgBlock m)) }) hready2.1 s.outer))
      hready2 (polls 1)
  have htake : (lastReplies 10 s1).take 5 = s.inner.toList := by rw [hcontext, List.take_left' Vector.length_toList]
  have hdrop : (lastReplies 10 s1).drop 5 = s.outer.toList := by rw [hcontext, List.drop_left' Vector.length_toList]
  refine ⟨s3, ?_⟩
  -- `delta`, because the equation of a definition with this many moves is costly to derive
  delta hostHmac
  simp only [hs1, htake, hs2, hinner, ← toList_digestBlock, hdrop, hs3, houter]

/-- Settles O56: the core holds the password's context, and a short message takes two compressions. -/
theorem hmacThroughCompIsTwoPassHmac : Obligations.HmacThroughCompIsTwoPassHmac := by
  intro s polls p m hready hm hcontext
  rw [hmacTwoPass_of_length_le hm, ← hcontext]
  exact hostHmac_eq hready polls m

end Sys2Proof.Machine
end

section
/-! PROOFS. The two kinds of block an output is made from (spec/42_pbkdf2_iteration.md R91, R92): the first block is the padded
message block of salt and index, the digest block that of 20 bytes. -/

namespace Sys2Proof.Machine

theorem bytesOfWords_append (x y : List Word) : bytesOfWords (x ++ y) = bytesOfWords x ++ bytesOfWords y :=
  List.flatMap_append

/-- The 44 bytes after the digest as words: the end mark, zeros and the bit length of 84 bytes (R92). -/
theorem digestPadding_eq_bytesOfWords :
    0x80 :: (List.replicate 35 0 ++ be64 672) = bytesOfWords [0x80000000, 0, 0, 0, 0, 0, 0, 0, 0, 0, 0x000002A0] := by
  decide

/-- Settles O44: the words are the digest's and the padding's. -/
theorem digestBlockLayout : Obligations.DigestBlockLayout := by
  intro h
  refine ⟨?_, toList_digestBlock h⟩
  rw [toList_digestBlock, bytesOfWords_append, digestPadding_eq_bytesOfWords, hashBytes]

/-- The 64 bytes of the block of a message of at most 55 bytes (R84). -/
theorem bytesOfWords_msgBlock {m : List Byte} (hm : m.length ≤ 55) :
    bytesOfWords (msgBlock m).toList
      = m ++ 0x80 :: (List.replicate (55 - m.length) 0 ++ be64 (BitVec.ofNat 64 (8 * (64 + m.length)))) := by
  rw [msgBlock, Config.maxMessage, bytesOfWords_blockOfList]
  simp only [List.length_append, List.length_cons, List.length_replicate, length_be64]
  omega

theorem getD_be32 (v : Word) {k : Nat} (hk : k < 4) : (be32 v).getD k 0 = wordByte v k := by
  match k, hk with
  | 0, _ | 1, _ | 2, _ | 3, _ => rfl

theorem getD_be64 (v : BitVec 64) {k : Nat} (hk : k < 8) : (be64 v).getD k 0 = be64Byte v k := by
  simp [be64, List.getD, hk]

/-- The bytes of the salt registers below the length (R16). -/
theorem getD_take_bytesOfWords_toList {n : Nat} (x : Vector Word n) {len k : Nat} (hk : k < len) :
    ((bytesOfWords x.toList).take len).getD k 0 = byteOf x k := by
  rw [← getD_bytesOfWords_toList]
  simp [List.getD, hk]

/-- The message of the first block: the salt bytes and the index (R91, R94). -/
def firstMessage (salt : SaltBank) (len : Nat) (i : Word) : List Byte :=
  (bytesOfWords salt.toList).take len ++ be32 i

theorem length_firstMessage (salt : SaltBank) {len : Nat} (hlen : len ≤ 51) (i : Word) :
    (firstMessage salt len i).length = len + 4 := by
  simp only [firstMessage, List.length_append, List.length_take, length_bytesOfWords, Vector.length_toList, length_be32]
  omega

/-- R91's bytes, range by range, are those of the padded message. -/
theorem firstBlock_eq_msgBlock (salt : SaltBank) {len : Nat} (hlen : len ≤ 51) (i : Word) :
    firstBlock salt len i = msgBlock (firstMessage salt len i) := by
  have hm := length_firstMessage salt hlen i
  have hsalt : ((bytesOfWords salt.toList).take len).length = len := by simp; omega
  refine block_ext_bytes fun k hk => ?_
  rw [firstBlock, byteOf_blockOfBytes _ _ hk, msgBlock, byteOf_blockOfList _ hk, firstBlockByte, hm, Config.maxMessage]
  by_cases hmessage : k < len + 4
  · rw [List.getD_append _ _ _ _ (hm ▸ hmessage), firstMessage]
    by_cases hsaltByte : k < len
    · rw [if_pos hsaltByte, List.getD_append _ _ _ _ (by omega), getD_take_bytesOfWords_toList _ hsaltByte]
    · rw [if_neg hsaltByte, if_pos hmessage, List.getD_append_right _ _ _ _ (by omega), hsalt, getD_be32 i (by omega)]
  · rw [if_neg (by omega), if_neg hmessage, List.getD_append_right _ _ _ _ (by omega), hm]
    by_cases hmark : k = len + 4
    · rw [if_pos hmark, hmark, Nat.sub_self, List.getD_cons_zero]
    · rw [if_neg hmark, show k - (len + 4) = k - (len + 5) + 1 by omega, List.getD_cons_succ]
      by_cases hzero : k ≤ 55
      · rw [if_pos hzero, List.getD_append _ _ _ _ (by simp; omega)]
        simp [List.getD]
      · rw [if_neg hzero, List.getD_append_right _ _ _ _ (by simp; omega), List.length_replicate,
          show k - (len + 5) - (55 - (len + 4)) = k - 56 by omega, getD_be64 _ (by omega), Nat.add_assoc]

/-- The eight bytes of `BE64`, four at a time, are the two halves (R7). -/
theorem packWord_be64Byte (v : BitVec 64) :
    packWord (be64Byte v 0) (be64Byte v 1) (be64Byte v 2) (be64Byte v 3) = v.extractLsb' 32 32
      ∧ packWord (be64Byte v 4) (be64Byte v 5) (be64Byte v 6) (be64Byte v 7) = v.extractLsb' 0 32 := by
  constructor
  · rw [← packWord_wordByte (v.extractLsb' 32 32)]
    simp only [wordByte_extractLsb']
    rfl
  · rw [← packWord_wordByte (v.extractLsb' 0 32)]
    simp only [wordByte_extractLsb']
    rfl

/-- The last eight bytes of the first block are the length field (R91). -/
theorem firstBlockByte_length (salt : SaltBank) {len : Nat} (hlen : len ≤ 51) (i : Word) (j : Nat) :
    firstBlockByte salt len i (56 + j) = be64Byte (BitVec.ofNat 64 (8 * (68 + len))) j := by
  rw [firstBlockByte, if_neg (by omega), if_neg (by omega), if_neg (by omega), if_neg (by omega), Nat.add_sub_cancel_left,
    show 64 + len + 4 = 68 + len by omega]

/-- Words 14 and 15 of the first block are the halves of its length field (R91). -/
theorem firstBlock_length_words (salt : SaltBank) {len : Nat} (hlen : len ≤ 51) (i : Word) :
    (firstBlock salt len i)[14] = (BitVec.ofNat 64 (8 * (68 + len))).extractLsb' 32 32
      ∧ (firstBlock salt len i)[15] = (BitVec.ofNat 64 (8 * (68 + len))).extractLsb' 0 32 := by
  have hbyte := firstBlockByte_length salt hlen i
  obtain ⟨hhigh, hlow⟩ := packWord_be64Byte (BitVec.ofNat 64 (8 * (68 + len)))
  rw [firstBlock, getElem_blockOfBytes _ _ (by decide), getElem_blockOfBytes _ _ (by decide), ← hhigh, ← hlow]
  exact ⟨by simp only [← hbyte], by simp only [← hbyte]⟩

/-- Settles O43: the block is that of a padded message, and the bit length fits the low half of its field. -/
theorem firstBlockLayout : Obligations.FirstBlockLayout := by
  intro salt len i hlen
  have hm := length_firstMessage salt hlen i
  obtain ⟨h14, h15⟩ := firstBlock_length_words salt hlen i
  refine ⟨?_, h14.trans ?_, h15.trans ?_⟩
  · rw [firstBlock_eq_msgBlock salt hlen, bytesOfWords_msgBlock (by omega), hm, Nat.add_assoc,
      show 55 - (len + 4) = 51 - len by omega, firstMessage]
  · apply BitVec.eq_of_toNat_eq
    rw [BitVec.extractLsb'_toNat, BitVec.toNat_ofNat, Nat.shiftRight_eq_div_pow, show (0 : Word).toNat = 0 from rfl]
    omega
  · apply BitVec.eq_of_toNat_eq
    simp only [BitVec.extractLsb'_toNat, BitVec.toNat_ofNat, Nat.shiftRight_zero]
    omega

end Sys2Proof.Machine
end

section
/-! PROOFS. The chain of HMAC outputs of one block (spec/42_pbkdf2_iteration.md R94 to R96) and what each output is of the password
(R84). -/

namespace Sys2Proof.Machine

/-- The loop from `U_{j+1}` on adds the outputs after it to the accumulator (R96). -/
theorem pbkdfLoop_eq_foldl (inner outer : Hash) (salt : SaltBank) (len : Nat) (i : Word) (n j : Nat) (t : Hash) :
    pbkdfLoop inner outer n (chainOutput inner outer salt len i j) t
      = (List.range n).foldl (fun acc k => xorHash acc (chainOutput inner outer salt len i (j + k + 1))) t := by
  induction n generalizing j t with
  | zero => rfl
  | succ n ih =>
    have hshift (k : Nat) : j + 1 + k + 1 = j + k.succ + 1 := by omega
    rw [List.range_succ_eq_map, List.foldl_cons, List.foldl_map]
    simp only [← hshift]
    exact ih (j + 1) _

/-- The output block is the loop from `U_1`, which is the first accumulator too (R96). -/
theorem pbkdfBlock_eq_foldl (inner outer : Hash) (salt : SaltBank) (len : Nat) (i : Word) (c : Nat) :
    pbkdfBlock inner outer salt len i c
      = (List.range (c - 1)).foldl (fun acc k => xorHash acc (chainOutput inner outer salt len i (k + 1)))
          (chainOutput inner outer salt len i 0) := by
  have hloop := pbkdfLoop_eq_foldl inner outer salt len i (c - 1) 0 (chainOutput inner outer salt len i 0)
  simp only [Nat.zero_add] at hloop
  rw [pbkdfBlock, ← hloop]
  rfl

/-- Settles O46: each further output is its two compressions by definition, and the loop is the fold over the chain. -/
theorem outputBlockIsXorOfTheChain : Obligations.OutputBlockIsXorOfTheChain := by
  intro inner outer salt len c i _
  exact ⟨fun _ => rfl, pbkdfBlock_eq_foldl inner outer salt len i 1, pbkdfBlock_eq_foldl inner outer salt len i c,
    fun x y j => getElem_xorHash x y j j.isLt⟩

/-- The bytes of the salt registers are the salt and zeros (R16, R53). -/
theorem bytesOfWords_saltWords {salt : List Byte} (hs : salt.length ≤ 52) :
    bytesOfWords (saltWords salt).toList = salt ++ List.replicate (52 - salt.length) 0 := by
  have hlength : (salt ++ List.replicate (52 - salt.length) (0 : Byte)).length = 52 := by simp; omega
  have hbytes := bytesOfWords_wordsOfBytes _ (show _ % 4 = 0 by rw [hlength])
  have hwords : (wordsOfBytes (salt ++ List.replicate (52 - salt.length) 0)).length = 13 := by
    have hfour := congrArg List.length hbytes
    rw [length_bytesOfWords, hlength] at hfour
    omega
  rw [← hbytes]
  refine congrArg bytesOfWords (List.ext_getElem (Vector.length_toList.trans hwords.symm) fun j hj hj' => ?_)
  rw [Vector.getElem_toList, getElem_saltWords hs j (by omega), List.getD_eq_getElem _ _ hj']

theorem take_bytesOfWords_saltWords {salt : List Byte} (hs : salt.length ≤ 52) :
    (bytesOfWords (saltWords salt).toList).take salt.length = salt := by
  rw [bytesOfWords_saltWords hs, List.take_left]

/-- Settles O49: the first block is the padded message of salt and index, which is short. -/
theorem firstOutputIsHmacOfSaltAndIndex : Obligations.FirstOutputIsHmacOfSaltAndIndex := by
  intro p salt i hs
  refine ⟨rfl, ?_⟩
  rw [hmacTwoPass_of_length_le (by simp; omega), chainOutput, hmac20, firstBlock_eq_msgBlock _ hs, firstMessage,
    take_bytesOfWords_saltWords (by omega)]

/-- Settles O50: a digest block is the padded message of the 20 bytes. -/
theorem furtherOutputsAreHmacOfThePrevious : Obligations.FurtherOutputsAreHmacOfThePrevious := by
  intro p salt len k i
  dsimp only
  rw [hmacTwoPass_of_length_le (by simp), msgBlock_hashBytes, chainOutput, hmac20]

end Sys2Proof.Machine
end

section
/-! PROOFS. The command PBLK (spec/42_pbkdf2_iteration.md R97, R100). -/

namespace Sys2Proof.Machine

theorem exec_of_check {i : Instr} {s : State} {e : CoreError} (hb : s.status.busy = false) (he : s.status.err = false)
    (hc : commandCheck i s = some e) : exec i s = .next (raiseError e s) := by
  rw [exec_idle hb, dispatchCommand_of_check he hc]

/-- Settles O19: the checks in their order, then the life every command has. -/
theorem pblkComputesOneOutputBlock : Obligations.PblkComputesOneOutputBlock := by
  refine ⟨decode_encode .pblk, fun s => ⟨fun hb he => exec_of_err hb he (by decide), fun hb he => ?_,
    fun hb => memWrite_busy hb 0x00 (encode .pblk), exec_of_latched (i := .pblk)⟩⟩
  refine ⟨fun hctxv => exec_of_check hb he ?_, fun hctxv hiter => exec_of_check hb he ?_,
    fun hctxv hiter hsaltlen => exec_of_check hb he ?_,
    fun hctxv hiter hsaltlen => exec_of_enabled ⟨hb, .inl ⟨he, fun _ => ⟨hctxv, hiter, hsaltlen⟩⟩⟩⟩
  · simp [commandCheck, pblkCheck, hctxv]
  · simp [commandCheck, pblkCheck, hctxv, hiter]
  · simpa [commandCheck, pblkCheck, hctxv, Config.maxSalt, hsaltlen] using hiter

/-- Settles O47: the result names the operands only, and the other registers are kept. -/
theorem outputBlockDependsOnlyOnItsOperands : Obligations.OutputBlockDependsOnlyOnItsOperands := by
  intro s s' hb hb' ho ho' hinner houter hsalt hsaltlen hiter hblkidx
  refine ⟨_, _, complete_of_latched (i := .pblk) hb ho, complete_of_latched (i := .pblk) hb' ho', ?_, hinner, houter, hsalt,
    hsaltlen, hiter⟩
  show pbkdfBlock _ _ _ _ _ _ = pbkdfBlock _ _ _ _ _ _
  rw [hinner, houter, hsalt, hsaltlen, hblkidx, hiter]

end Sys2Proof.Machine
end

section
/-! PROOFS. Derived keys (spec/42_pbkdf2_iteration.md R101, R102): the output blocks one after the other, as the pure function puts
them together and as HostDeriveKey reads them from the core. -/

namespace Sys2Proof.Machine

/-- `T_i || T_{i+1} || ...`, `count` output blocks from block `i` on (R101). -/
def blocksFrom (call : DeriveCall) (i count : Nat) : List Byte :=
  (List.range' i count).flatMap fun j => hashBytes (derivedBlock call j)

theorem derivedKey_eq_take_blocksFrom (call : DeriveCall) :
    derivedKey call = (blocksFrom call 1 call.numBlocks).take call.keyLength := by
  simp only [derivedKey, blocksFrom, List.range'_eq_map_range, List.flatMap_map, Nat.add_comm 1]

theorem blocksFrom_succ (call : DeriveCall) (i count : Nat) :
    blocksFrom call i (count + 1) = hashBytes (derivedBlock call i) ++ blocksFrom call (i + 1) count := by
  rw [blocksFrom, List.range'_succ, List.flatMap_cons, blocksFrom]

theorem blocksFrom_add (call : DeriveCall) (i m n : Nat) :
    blocksFrom call i (m + n) = blocksFrom call i m ++ blocksFrom call (i + m) n := by
  rw [blocksFrom, ← List.range'_append_1, List.flatMap_append, blocksFrom, blocksFrom]

@[simp] theorem length_blocksFrom (call : DeriveCall) (i count : Nat) : (blocksFrom call i count).length = 20 * count := by
  induction count generalizing i with
  | zero => rfl
  | succ count ih =>
    rw [blocksFrom_succ, List.length_append, length_hashBytes, ih]
    omega

/-- More blocks than the key needs do not change its bytes (R101). -/
theorem derivedKey_eq_take_of_numBlocks_le {call : DeriveCall} {n : Nat} (hn : call.numBlocks ≤ n) :
    derivedKey call = (blocksFrom call 1 n).take call.keyLength := by
  obtain ⟨extra, rfl⟩ := Nat.exists_eq_add_of_le hn
  rw [derivedKey_eq_take_blocksFrom, blocksFrom_add, List.take_append_of_le_length]
  rw [length_blocksFrom, DeriveCall.numBlocks]
  omega

/-- Settles O55: both keys are beginnings of the longer key's blocks. -/
theorem derivedKeyLengthAndPrefix : Obligations.DerivedKeyLengthAndPrefix := by
  intro call k _
  refine ⟨?_, fun hk => ?_⟩
  · rw [derivedKey_eq_take_blocksFrom, List.length_take, length_blocksFrom, DeriveCall.numBlocks]
    omega
  · have hblocks : call.numBlocks ≤ ({ call with keyLength := k } : DeriveCall).numBlocks := by
      simp only [DeriveCall.numBlocks]
      omega
    rw [derivedKey_eq_take_of_numBlocks_le hblocks, derivedKey_eq_take_blocksFrom]
    exact List.take_prefix_take_left hk.le

/-- The preconditions of R101. -/
theorem wellFormed_iff (call : DeriveCall) :
    call.wellFormed = true ↔
      call.salt.length ≤ 51 ∧ (1 ≤ call.iterations ∧ call.iterations ≤ 2 ^ 32 - 1)
        ∧ 1 ≤ call.keyLength ∧ call.numBlocks ≤ 2 ^ 32 - 1 := by
  simp only [DeriveCall.wellFormed, saltFits, iterationsFit, DeriveCall.keyLengthFits, Bool.and_eq_true, decide_eq_true_eq,
    and_assoc]
  rfl

/-- What the core holds while HostDeriveKey runs its block loop: the context of the password, the salt and the count (R101). -/
structure LoadedFor (call : DeriveCall) (s : State) : Prop where
  ready : s.Ready
  ctxv : s.status.ctxv = true
  context : (s.inner, s.outer) = hmacCtx (keyBlock call.password)
  salt : s.salt = saltWords call.salt
  saltlen : s.saltlen.toNat = call.salt.length
  iter : s.iter.toNat = call.iterations

/-- After HKEY the core is ready and holds the context of the block in `W` (R81). -/
theorem ready_and_context_of_hkey {s t : State} (h : t.registers = (commandResult .hkey s).registers)
    (he : s.status.err = false) :
    t.Ready ∧ t.status.ctxv = true ∧ (t.inner, t.outer) = hmacCtx s.w :=
  ⟨⟨congrArg (·.status.busy) h, (congrArg (·.status.err) h).trans he⟩, congrArg (·.status.ctxv) h,
    congrArg (fun u => (u.inner, u.outer)) h⟩

/-- The key part of HostDeriveKey: both procedures end with HKEY on the password's key block (R82, R83). -/
theorem performAll_hostKeyMoves {s : State} (hready : s.Ready) (polls : Nat → Nat) (p : List Byte) :
    ∃ t, performAll (hostKeyMoves polls p) s = .next t
      ∧ t.Ready ∧ t.status.ctxv = true ∧ (t.inner, t.outer) = hmacCtx (keyBlock p) := by
  by_cases hp : p.length ≤ 64
  · rw [hostKeyMoves, Config.blockBytes, if_pos hp, keyBlock_of_short hp]
    obtain ⟨t, ht, hregisters⟩ := performAll_hostKeyShortMoves hready polls p
    have hcontext := ready_and_context_of_hkey hregisters hready.2
    exact ⟨t, ht, hcontext⟩
  · rw [hostKeyMoves, Config.blockBytes, if_neg hp, keyBlock_of_long (Nat.lt_of_not_le hp)]
    obtain ⟨t, ht, hregisters⟩ := performAll_hostKeyLongMoves hready polls p
    have hcontext := ready_and_context_of_hkey hregisters hready.2
    exact ⟨t, ht, hcontext⟩

/-- A host write to word `j` of `SALT` (R16, R32). -/
theorem perform_write_salt {s : State} (hb : s.status.busy = false) {j : Nat} (hj : j < 13) (v : Word) :
    perform (.write (BitVec.ofNat 7 (0x40 + j)) v) s = .next { s with salt := s.salt.set j v } := by
  refine memWrite_of_writeSlot hb ?_
  rw [show slotOf (BitVec.ofNat 7 (0x40 + j)) = .salt ⟨j, hj⟩ from slotOf_ofNat_indexOf (.salt ⟨j, hj⟩)]
  rfl

/-- LDSALT leaves the salt in `SALT` and its length in `SALTLEN` (R53). -/
theorem performAll_ldsaltMoves {s : State} (hb : s.status.busy = false) (salt : List Byte) :
    performAll (ldsaltMoves salt) s
      = .next { s with salt := saltWords salt, saltlen := BitVec.ofNat 32 salt.length } := by
  have hwrites := performAll_writeArray 0x40 State.salt (fun s x => { s with salt := x }) (fun _ _ => rfl) (fun _ _ _ => rfl)
    (fun _ => rfl) (fun _ _ => rfl) (fun _ _ hj v hb => perform_write_salt hb hj v) (saltWords salt).toList 0 s hb (by simp)
  rw [overwrite_toList] at hwrites
  rw [ldsaltMoves, performAll_append_of_next hwrites]
  have hsaltlen := memWrite_of_writeSlot (s := { s with salt := saltWords salt }) (idx := 0x04)
    (v := BitVec.ofNat 32 salt.length) hb rfl
  simp only [performAll, perform_write, hsaltlen]

/-- HostDeriveKey up to its block loop loads the core for the call (R101). -/
theorem performAll_loadMoves {call : DeriveCall} (hwf : call.wellFormed = true) {s : State} (hready : s.Ready)
    (polls : Nat → Nat) :
    ∃ t, performAll
        (hostKeyMoves polls call.password ++ ldsaltMoves call.salt ++ [.write 0x02 (BitVec.ofNat 32 call.iterations)]) s
          = .next t
      ∧ LoadedFor call t := by
  obtain ⟨hsalt, ⟨-, hiterations⟩, -⟩ := (wellFormed_iff call).1 hwf
  obtain ⟨u, hu, hready', hctxv, hcontext⟩ := performAll_hostKeyMoves hready polls call.password
  have hiter := memWrite_of_writeSlot
    (s := { u with salt := saltWords call.salt, saltlen := BitVec.ofNat 32 call.salt.length }) (idx := 0x02)
    (v := BitVec.ofNat 32 call.iterations) hready'.1 rfl
  have fits {n : Nat} (hn : n ≤ 2 ^ 32 - 1) : (BitVec.ofNat 32 n).toNat = n := Nat.mod_eq_of_lt (by omega)
  refine ⟨{ u with
      salt := saltWords call.salt
      saltlen := BitVec.ofNat 32 call.salt.length
      iter := BitVec.ofNat 32 call.iterations }, ?_, hready', hctxv, hcontext, rfl, fits (by omega), fits hiterations⟩
  rw [List.append_assoc, performAll_append_of_next hu, performAll_append_of_next (performAll_ldsaltMoves hready'.1 call.salt),
    performAll, perform_write, hiter]
  rfl

/-- The invariant of the block loop is about registers only. -/
theorem LoadedFor.of_registers_eq {call : DeriveCall} {s t : State} (hs : LoadedFor call s) (h : t.registers = s.registers) :
    LoadedFor call t := by
  obtain ⟨_, _, _, _, rfl⟩ := eq_of_registers_eq h
  exact ⟨hs.ready, hs.ctxv, hs.context, hs.salt, hs.saltlen, hs.iter⟩

/-- The preconditions of R101 are those of PBLK on the loaded core (R97). -/
theorem LoadedFor.pblk_enabled {call : DeriveCall} (hwf : call.wellFormed = true) {s : State} (hs : LoadedFor call s) :
    CommandEnabled .pblk s := by
  obtain ⟨hsalt, ⟨hiterations, -⟩, -⟩ := (wellFormed_iff call).1 hwf
  refine ⟨hs.ready.1, .inl ⟨hs.ready.2, fun _ => ⟨hs.ctxv, fun hzero => ?_, hs.saltlen ▸ hsalt⟩⟩⟩
  have hnone : call.iterations = 0 := by rw [← hs.iter, hzero]; rfl
  omega

/-- PBLK on the loaded core makes the output block of the index in `BLKIDX` (R97, R101). -/
theorem LoadedFor.commandResult_pblk {call : DeriveCall} {s : State} (hs : LoadedFor call s) (i : Nat) :
    (commandResult .pblk { s with blkidx := BitVec.ofNat 32 i }).t = derivedBlock call i := by
  show pbkdfBlock s.inner s.outer s.salt s.saltlen.toNat (BitVec.ofNat 32 i) s.iter.toNat = _
  rw [derivedBlock, ← hs.context, hs.salt, hs.saltlen, hs.iter]

/-- One pass of the block loop reads `T_i` and leaves the core loaded (R101). -/
theorem performAll_blockMoves {call : DeriveCall} (hwf : call.wellFormed = true) {s : State} (hs : LoadedFor call s)
    (polls i : Nat) :
    ∃ t, performAll (blockMoves polls i) s = .next t ∧ LoadedFor call t
      ∧ lastReplies 5 t = (derivedBlock call i).toList := by
  have hblkidx := memWrite_of_writeSlot (idx := 0x03) (v := BitVec.ofNat 32 i) hs.ready.1 rfl
  obtain ⟨u, hu, hregisters, -⟩ :=
    commandThenWaitLeavesItsResult .pblk polls { s with blkidx := BitVec.ofNat 32 i } (hs.pblk_enabled hwf)
  have hresult : LoadedFor call (commandResult .pblk { s with blkidx := BitVec.ofNat 32 i }) :=
    ⟨⟨rfl, hs.ready.2⟩, hs.ctxv, hs.context, hs.salt, hs.saltlen, hs.iter⟩
  have hloaded : LoadedFor call u := hresult.of_registers_eq hregisters
  have hblock : u.t = derivedBlock call i := (congrArg (·.t) hregisters).trans (hs.commandResult_pblk i)
  have hread := performAll_readArray_toList hloaded.ready.1 u.t 0x38 .t (fun _ => rfl) (fun _ => rfl)
  refine ⟨{ u with replies := u.replies ++ u.t.toList }, ?_, hloaded.of_registers_eq rfl, ?_⟩
  · rw [blockMoves, performAll, perform_write, hblkidx]
    exact (performAll_append_of_next hu _).trans hread
  · rw [lastReplies_append _ _ _ Vector.length_toList, hblock]

/-- The block loop collects the output blocks in order (R101). -/
theorem hostBlocks_eq {call : DeriveCall} (hwf : call.wellFormed = true) (polls : Nat → Nat) (count i : Nat) {s : State}
    (hs : LoadedFor call s) (dk : List Byte) :
    ∃ t, hostBlocks polls count i s dk = some (dk ++ blocksFrom call i count, t) ∧ t.Ready := by
  induction count generalizing i s dk with
  | zero => exact ⟨s, by rw [hostBlocks, blocksFrom, List.range'_zero, List.flatMap_nil, List.append_nil], hs.ready⟩
  | succ count ih =>
    obtain ⟨u, hu, hloaded, hreplies⟩ := performAll_blockMoves hwf hs (polls i) i
    obtain ⟨t, ht, hready⟩ := ih (i + 1) hloaded (dk ++ bytesOfWords (lastReplies 5 u))
    refine ⟨t, ?_, hready⟩
    rw [hostBlocks, hu]
    simp only [ht]
    rw [hreplies, blocksFrom_succ, List.append_assoc, hashBytes]

/-- A call that meets R101's preconditions returns the derived key. -/
theorem hostDeriveKey_of_wellFormed {call : DeriveCall} (hwf : call.wellFormed = true) {s : State} (hready : s.Ready)
    (keyPolls blockPolls : Nat → Nat) :
    ∃ t, hostDeriveKey keyPolls blockPolls call s = some (derivedKey call, t) ∧ t.Ready := by
  obtain ⟨u, hu, hloaded⟩ := performAll_loadMoves hwf hready keyPolls
  obtain ⟨t, ht, hready'⟩ := hostBlocks_eq hwf blockPolls call.numBlocks 1 hloaded []
  refine ⟨t, ?_, hready'⟩
  rw [hostDeriveKey, if_pos hwf, hu]
  simp only [ht, List.nil_append, Option.map_some, derivedKey_eq_take_blocksFrom]

/-- Settles O54: the preconditions are those of the host's check, which accepts the call or rejects it. -/
theorem hostDeriveKeyReturnsTheDerivedKey : Obligations.HostDeriveKeyReturnsTheDerivedKey := by
  intro s keyPolls blockPolls call hready
  refine ⟨fun ⟨hmin, hmax, hkey, hblocks, hsalt⟩ => ?_, fun hfails => ?_⟩
  · exact hostDeriveKey_of_wellFormed ((wellFormed_iff call).2 ⟨by omega, ⟨hmin, hmax⟩, hkey, hblocks⟩) hready _ _
  · have hrejected : ¬ call.wellFormed = true := by
      rw [wellFormed_iff, DeriveCall.numBlocks]
      omega
    rw [hostDeriveKey, if_neg hrejected]

end Sys2Proof.Machine
end

section
/-! PROOFS. The command CLR (spec/43_system.md R110). -/

namespace Sys2Proof.Machine

/-- In the error state an illegal word is refused without effect, as a command other than CLR is (R49, R124). -/
theorem perform_write_illegal_eq_ite {s : State} (hb : s.status.busy = false) {v : Word} (hv : ∀ i, v ≠ encode i) :
    perform (.write 0x00 v) s = .next (if s.status.err then s else raiseError .illcmd s) := by
  rw [perform_write_illegal hb hv]
  split
  case isTrue he => rw [raiseError_of_err he]
  case isFalse => rfl

/-- A word with a bit above the opcode is no command's (R45, R48). -/
theorem ne_encode_of_zero_ne {v : Word} (hv : (commandFields v).zero ≠ 0) (i : Instr) : v ≠ encode i := by
  rintro rfl
  exact hv (decode_ok (decode_encode i)).1

/-- Settles O20: CLR is enabled in the error state too, and its completion is the reset event's effect on the registers. -/
theorem clrReturnsEveryRegisterToReset : Obligations.ClrReturnsEveryRegisterToReset :=
  ⟨decode_encode .clr, fun s => ⟨fun hb => exec_of_enabled ⟨hb, .inr rfl⟩,
    fun hb => perform_write_illegal_eq_ite hb (ne_encode_of_zero_ne (by decide)),
    fun hb => memWrite_busy hb 0x00 (encode .clr),
    fun hb ho => ⟨clearRegisters s, exec_busy (i := .clr) hb ho, rfl, readSlot_reset .status, rfl, rfl⟩⟩⟩

end Sys2Proof.Machine
end

section
/-! PROOFS. Recording an error (spec/60_exceptions.md R120, R121) and the test that chooses it (R123): the tests are read index class
by index class, and at `CMD` of an idle core they are the command's own. -/

namespace Sys2Proof.Machine

/-- Settles O10, from what `raise` does to the flags. -/
theorem raiseKeepsTheFirstError : Obligations.RaiseKeepsTheFirstError := by
  refine ⟨fun e s => ⟨fun he => ?_, fun he => raiseError_of_err he e⟩, rfl, rfl, rfl, rfl, rfl, rfl⟩
  rw [raiseError, raised_of_no_err he]

/-- An index is `CMD`'s, that of a data register the host may write, read-only or reserved (R10, R22). -/
theorem index_classes (idx : SlotIndex) : idx = 0x00 ∨ HostWritable idx ∨ (ReadOnlyIndex idx ∨ ReservedIndex idx) := by
  by_cases hcmd : idx = 0x00
  · exact .inl hcmd
  · have hpos : idx.toNat ≠ 0 := fun h => hcmd (BitVec.eq_of_toNat_eq h)
    unfold HostWritable ReadOnlyIndex ReservedIndex
    omega

theorem errorOfWrite_busy {s : State} (hb : s.status.busy = true) (idx : SlotIndex) (v : Word) :
    errorOfWrite s idx v = some .busywr := by
  simp [errorOfWrite, hb]

theorem errorOfWrite_of_hostWritable {s : State} (hb : s.status.busy = false) {idx : SlotIndex} (hw : HostWritable idx) (v : Word) :
    errorOfWrite s idx v = none := by
  unfold HostWritable at hw
  rw [errorOfWrite, hb, if_neg Bool.false_ne_true, if_neg (by omega), if_pos (by omega)]

theorem errorOfWrite_of_readOnly_or_reserved {s : State} (hb : s.status.busy = false) {idx : SlotIndex}
    (h : ReadOnlyIndex idx ∨ ReservedIndex idx) (v : Word) : errorOfWrite s idx v = some .badwr := by
  unfold ReadOnlyIndex ReservedIndex at h
  rw [errorOfWrite, hb, if_neg Bool.false_ne_true, if_pos (by omega)]

/-- At `CMD` of an idle core with no error recorded, a command word's tests are the command's own checks (R49, R123). -/
theorem errorOfWrite_encode {s : State} (hb : s.status.busy = false) (he : s.status.err = false) (i : Instr) :
    errorOfWrite s 0x00 (encode i) = commandCheck i s := by
  cases i
  case pblk =>
    have hnumber : s.iter.toNat = 0 ↔ s.iter = 0 := by simp [← BitVec.toNat_inj]
    unfold commandCheck pblkCheck Config.maxSalt
    cases hctxv : s.status.ctxv
    · simp [errorOfWrite, hb, he, encode, opcodeOf, hctxv]
    · by_cases hiter : s.iter.toNat = 0
      · simp [errorOfWrite, hb, he, encode, opcodeOf, hctxv, hnumber.1 hiter]
      · simpa [errorOfWrite, hb, he, encode, opcodeOf, hctxv, hiter] using fun h => absurd (hnumber.2 h) hiter
  all_goals simp [errorOfWrite, hb, he, encode, opcodeOf, commandCheck, noCheck]

theorem errorOfWrite_cmd_of_err {s : State} (hb : s.status.busy = false) (he : s.status.err = true) (v : Word) :
    errorOfWrite s 0x00 v = none := by
  simp [errorOfWrite, hb, he]

/-- The numbers 1 to 6 are the command words (R47). -/
theorem exists_encode_of_range {v : Word} (h1 : 1 ≤ v.toNat) (h6 : v.toNat ≤ 6) : ∃ i, v = encode i := by
  have hrow : v.toNat = 1 ∨ v.toNat = 2 ∨ v.toNat = 3 ∨ v.toNat = 4 ∨ v.toNat = 5 ∨ v.toNat = 6 := by omega
  rcases hrow with h | h | h | h | h | h
  · exact ⟨.ldiv, BitVec.eq_of_toNat_eq h⟩
  · exact ⟨.comp, BitVec.eq_of_toNat_eq h⟩
  · exact ⟨.kdig, BitVec.eq_of_toNat_eq h⟩
  · exact ⟨.hkey, BitVec.eq_of_toNat_eq h⟩
  · exact ⟨.pblk, BitVec.eq_of_toNat_eq h⟩
  · exact ⟨.clr, BitVec.eq_of_toNat_eq h⟩

theorem errorOfWrite_illegal {s : State} (hb : s.status.busy = false) (he : s.status.err = false) {v : Word}
    (hv : ∀ i, v ≠ encode i) : errorOfWrite s 0x00 v = some .illcmd := by
  have hrange : v.toNat = 0 ∨ 6 < v.toNat := by
    by_contra hlegal
    obtain ⟨i, hi⟩ := exists_encode_of_range (v := v) (by omega) (by omega)
    exact hv i hi
  simp [errorOfWrite, hb, he, hrange]

/-- What a write is to answer when the tests choose the given error: that error recorded, or, when they choose none, a state with
`ERR` and `ERRCODE` as they were (R123). -/
def AnswersError (s : State) (answer : StepOutcome) : Option CoreError → Prop
  | some e => answer = .next (raiseError e s)
  | none => ∃ t, answer = .next t ∧ t.status.err = s.status.err ∧ t.status.errcode = s.status.errcode

/-- A command word written to an idle core: refused in the error state, else its own checks decide (R49). -/
theorem perform_write_encode_answers {s : State} (hb : s.status.busy = false) (i : Instr) :
    AnswersError s (perform (.write 0x00 (encode i)) s) (errorOfWrite s 0x00 (encode i)) := by
  rw [perform_write_encode hb]
  rcases dispatchCommand_cases i (commandCheck i) s with ⟨he, -, hd⟩ | ⟨he, e, hc, hd⟩ | ⟨⟨he, -⟩ | ⟨he, hc⟩, hd⟩ <;> rw [hd]
  · rw [errorOfWrite_cmd_of_err hb he]
    exact ⟨s, rfl, rfl, rfl⟩
  · rw [errorOfWrite_encode hb he, hc]
    rfl
  · rw [errorOfWrite_cmd_of_err hb he]
    exact ⟨_, rfl, rfl, rfl⟩
  · rw [errorOfWrite_encode hb he, hc]
    exact ⟨_, rfl, rfl, rfl⟩

/-- A word that is no command, written to an idle core (R48). -/
theorem perform_write_illegal_answers {s : State} (hb : s.status.busy = false) {v : Word} (hv : ∀ i, v ≠ encode i) :
    AnswersError s (perform (.write 0x00 v) s) (errorOfWrite s 0x00 v) := by
  rw [perform_write_illegal hb hv]
  cases he : s.status.err
  · rw [errorOfWrite_illegal hb he hv]
    rfl
  · rw [errorOfWrite_cmd_of_err hb he, raiseError_of_err he]
    exact ⟨s, rfl, rfl, rfl⟩

/-- A data write to an idle core stores the word and leaves `STATUS` (R32). -/
theorem perform_write_of_hostWritable {s : State} (hb : s.status.busy = false) {idx : SlotIndex} (hw : HostWritable idx) (v : Word) :
    ∃ t, perform (.write idx v) s = .next t ∧ memRead idx t = v ∧ t.status = s.status := by
  obtain ⟨t, ht⟩ := exists_writeSlot hw s v
  have hstatus : t.status = s.status := (writeSlot_frame ht).1
  refine ⟨t, memWrite_of_writeSlot hb ht, ?_, hstatus⟩
  rw [memRead_idle (by rw [hstatus, hb]), readSlot_writeSlot_same ht]

theorem perform_write_of_readOnly_or_reserved {s : State} (hb : s.status.busy = false) {idx : SlotIndex}
    (h : ReadOnlyIndex idx ∨ ReservedIndex idx) (v : Word) : perform (.write idx v) s = .next (raiseError .badwr s) := by
  obtain ⟨hcmd, hnone⟩ := slotOf_ne_cmd_and_writeSlot_eq_none h s v
  simp [memWrite, hb, hcmd, hnone]

theorem perform_write_answers (s : State) (idx : SlotIndex) (v : Word) :
    AnswersError s (perform (.write idx v) s) (errorOfWrite s idx v) := by
  cases hb : s.status.busy
  case true =>
    rw [errorOfWrite_busy hb]
    exact memWrite_busy hb idx v
  case false =>
    rcases index_classes idx with rfl | hw | hkept
    · by_cases hv : ∃ i, v = encode i
      · obtain ⟨i, rfl⟩ := hv
        exact perform_write_encode_answers hb i
      · exact perform_write_illegal_answers hb fun i hi => hv ⟨i, hi⟩
    · rw [errorOfWrite_of_hostWritable hb hw]
      obtain ⟨t, ht, -, hstatus⟩ := perform_write_of_hostWritable hb hw v
      exact ⟨t, ht, by rw [hstatus], by rw [hstatus]⟩
    · rw [errorOfWrite_of_readOnly_or_reserved hb hkept]
      exact perform_write_of_readOnly_or_reserved hb hkept v

/-- Settles O11: while idle by the class of the index, and at `CMD` by whether the word is a command. -/
theorem firstFailingTestChoosesTheError : Obligations.FirstFailingTestChoosesTheError := by
  intro s idx v
  have h := perform_write_answers s idx v
  cases herror : errorOfWrite s idx v <;> rw [herror] at h <;> exact h

end Sys2Proof.Machine
end

section
/-! PROOFS. The error state (spec/60_exceptions.md R124, R125) and transactions that meet a running command (R122). -/

namespace Sys2Proof.Machine

/-- In the error state no host write touches `ERR` or the recorded code, whatever the write's tests choose (R121, R123). -/
theorem memWrite_keeps_recorded_error {s t : State} (he : s.status.err = true) {idx : SlotIndex} {v : Word}
    (h : memWrite idx v s = .next t) : t.status.err = true ∧ t.status.errcode = s.status.errcode := by
  have hanswers := perform_write_answers s idx v
  rw [perform_write, h] at hanswers
  cases herror : errorOfWrite s idx v with
  | some e =>
    rw [herror] at hanswers
    cases hanswers
    rw [raiseError_of_err he]
    exact ⟨he, rfl⟩
  | none =>
    rw [herror] at hanswers
    obtain ⟨u, hu, herr, hcode⟩ := hanswers
    cases hu
    exact ⟨herr.trans he, hcode⟩

/-- The engine's turn keeps `ERR` and its code, unless it is the completion of CLR (R46, R50). -/
theorem complete_keeps_error {s t : State} (h : complete s = .next t) (hclr : ¬(s.status.busy = true ∧ s.hidden.op = 0x06)) :
    t.status.err = s.status.err ∧ t.status.errcode = s.status.errcode := by
  rcases complete_cases s with ⟨-, hc⟩ | ⟨hb, i, ho, hc⟩ | ⟨-, -, hc⟩ <;> rw [hc] at h <;> cases h
  · exact ⟨rfl, rfl⟩
  · have hi : i ≠ .clr := by
      rintro rfl
      exact hclr ⟨hb, ho⟩
    obtain ⟨-, -, -, -, herr, hcode⟩ := commandEffect_inputs hi s
    exact ⟨herr, hcode⟩

/-- Settles O12: reset and CLR's completion both clear the registers, and each other kind of move keeps the error field. -/
theorem errorStaysUntilClrOrReset : Obligations.ErrorStaysUntilClrOrReset := by
  intro s t m he ht
  refine ⟨?_, fun hkept => ?_⟩
  · rintro (rfl | ⟨rfl, hb, ho⟩)
    · cases ht
      exact ⟨rfl, rfl, rfl⟩
    · rw [perform_engine, complete_of_latched (i := .clr) hb ho] at ht
      cases ht
      exact ⟨rfl, rfl, rfl⟩
  · cases m with
    | read idx => cases ht; exact ⟨he, rfl⟩
    | write idx v => exact memWrite_keeps_recorded_error he ht
    | engine =>
      obtain ⟨herr, hcode⟩ := complete_keeps_error ht fun hclr => hkept (.inr ⟨rfl, hclr⟩)
      exact ⟨herr.trans he, hcode⟩
    | reset => exact absurd (.inl rfl) hkept

/-- Settles O13, clause by clause: what would be raised while idle or busy is not recorded a second time. -/
theorem errorStateRefusesCommands : Obligations.ErrorStateRefusesCommands := by
  intro s he
  refine ⟨fun hb => ⟨fun v hv => (dispatchChecksInOrder s v hb).1 he hv, fun idx v hw => perform_write_of_hostWritable hb hw v⟩,
    fun idx v h => ?_, fun idx => rfl, fun i hb ho => ⟨_, complete_of_latched hb ho, rfl⟩⟩
  cases hb : s.status.busy
  · rw [perform_write_of_readOnly_or_reserved hb h, raiseError_of_err he]
  · rw [perform_write, memWrite_busy hb, raiseError_of_err he]

/-- `t` runs the command `s` runs, on the same registers; only `ERR`, `ERRCODE` and the model's own fields may differ (R122). -/
structure SameCommandRunning (s t : State) : Prop where
  data : t.dataRegisters = s.dataRegisters
  hidden : t.hidden = s.hidden
  busy : t.status.busy = true
  done : t.status.done = s.status.done
  ctxv : t.status.ctxv = s.status.ctxv

/-- By induction on the transactions, each of which leaves the command as it was (R27). -/
theorem performAll_host_busy {s : State} (hb : s.status.busy = true) {ms : List Move} (hms : ∀ m ∈ ms, isHostMove m = true) :
    ∃ t, performAll ms s = .next t ∧ SameCommandRunning s t := by
  induction ms generalizing s with
  | nil => exact ⟨s, rfl, rfl, rfl, hb, rfl, rfl⟩
  | cons m ms ih =>
    obtain ⟨hm, hrest⟩ := List.forall_mem_cons.1 hms
    obtain ⟨u, hu, hdata, hhidden, hbusy, hdone, hctxv, -⟩ := (nothingPartialIsSeenWhileBusy s hb).1 m hm
    obtain ⟨t, ht, same⟩ := ih hbusy hrest
    refine ⟨t, ?_, same.data.trans hdata, same.hidden.trans hhidden, same.busy, same.done.trans hdone, same.ctxv.trans hctxv⟩
    rw [performAll, hu]
    exact ht

/-- One move more. -/
theorem performAll_concat_of_next {ms : List Move} {m : Move} {s u t : State} (hu : performAll ms s = .next u)
    (ht : perform m u = .next t) : performAll (ms ++ [m]) s = .next t := by
  rw [performAll_append_of_next hu, performAll, ht]
  rfl

/-- What a command leaves in the data registers depends on the data registers only (R46). -/
theorem dataRegisters_commandResult (i : Instr) (s : State) :
    (commandResult i s).dataRegisters = (commandResult i s.dataRegisters).dataRegisters := by
  cases i <;> rfl

/-- A completion writes `DONE`, and `CTXV` is written or kept (R46, R50). -/
theorem commandResult_done_ctxv_congr (i : Instr) {s t : State} (h : t.status.ctxv = s.status.ctxv) :
    (commandResult i t).status.done = (commandResult i s).status.done
      ∧ (commandResult i t).status.ctxv = (commandResult i s).status.ctxv := by
  cases i
  case hkey | clr => exact ⟨rfl, rfl⟩
  all_goals exact ⟨rfl, h⟩

/-- Settles O14: the transactions leave the running command's operands, on which alone its result depends. -/
theorem busyTransactionsDoNotDisturbTheCommand : Obligations.BusyTransactionsDoNotDisturbTheCommand := by
  intro s t ms hb hms ht
  obtain ⟨u, hu, same⟩ := performAll_host_busy hb hms
  rcases complete_cases s with ⟨hidle, -⟩ | ⟨-, i, ho, -⟩ | ⟨-, -, hfault⟩
  · simp [hb] at hidle
  · rw [complete_of_latched hb ho] at ht
    cases ht
    have hcomplete := complete_of_latched same.busy (i := i) (by rw [same.hidden, ho])
    obtain ⟨hdone, hctxv⟩ := commandResult_done_ctxv_congr i same.ctxv
    have hdata : (commandResult i u).dataRegisters = (commandResult i s).dataRegisters := by
      rw [dataRegisters_commandResult i u, same.data, ← dataRegisters_commandResult]
    exact ⟨_, performAll_concat_of_next hu hcomplete, hdata, commandResult_busy i u, hdone, hctxv⟩
  · rw [hfault] at ht
    cases ht

end Sys2Proof.Machine
end

section
/-! PROOFS. Reset and the end of a run (spec/70_reset_and_hazards.md R140, R141, R149, R150). -/

namespace Sys2Proof.Machine

theorem registers_clearRegisters (s : State) : (clearRegisters s).registers = State.reset.registers := rfl

/-- Settles O22: the reset event does not look at `BUSY`, and it keeps the model's own lists. -/
theorem resetEventClearsEveryRegister : Obligations.ResetEventClearsEveryRegister :=
  fun s => ⟨clearRegisters s, perform_reset s, registers_clearRegisters s, clearRegisters_agenda s, clearRegisters_replies s⟩

/-- A list of moves that does not stop has a first move that does not stop. -/
theorem performAll_cons_next {m : Move} {ms : List Move} {s t : State} (h : performAll (m :: ms) s = .next t) :
    ∃ u, perform m s = .next u ∧ performAll ms u = .next t := by
  rw [performAll] at h
  cases hm : perform m s with
  | next u => rw [hm] at h; exact ⟨u, rfl, h⟩
  | fault r => rw [hm] at h; cases h
  | refused r => rw [hm] at h; cases h

/-- A run makes the first moves of its agenda and leaves the others to come. -/
theorem run_of_performAll_append {ms : List Move} {s t : State} (h : performAll ms s = .next t) (rest : List Move) :
    Host.Core.run Sys2Proof.core ms.length { s with agenda := ms ++ rest } = .next { t with agenda := rest } := by
  induction ms generalizing s with
  | nil => cases h; rfl
  | cons m ms ih =>
    obtain ⟨u, hm, hms⟩ := performAll_cons_next h
    rw [List.length_cons, List.cons_append, run_of_step (step_of_perform hm (ms ++ rest))]
    exact ih hms

/-- One step more at the end of a run. -/
theorem run_succ_of_run {k : Nat} {s u t : State} (hu : Host.Core.run Sys2Proof.core k s = .next u) (ht : step u = .next t) :
    Host.Core.run Sys2Proof.core (k + 1) s = .next t := by
  induction k generalizing s with
  | zero => cases hu; exact run_of_step ht 0
  | succ k ih =>
    cases hs : step s with
    | next r =>
      rw [run_of_step hs] at hu ⊢
      exact ih hu
    | fault r => simp [Host.Core.run, show Sys2Proof.core.step s = .fault r from hs] at hu
    | refused r => simp [Host.Core.run, show Sys2Proof.core.step s = .refused r from hs] at hu

theorem performAll_keeps_inv {s : State} (hs : s.Inv) (ms : List Move) : ∃ t, performAll ms s = .next t ∧ t.Inv := by
  induction ms generalizing s with
  | nil => exact ⟨s, rfl, hs⟩
  | cons m ms ih =>
    obtain ⟨u, hu, hinv⟩ := perform_keeps_inv hs m
    rw [performAll, hu]
    exact ih hinv

/-- The engine's turn ends whatever command is running (R50). -/
theorem busy_of_complete {s t : State} (h : complete s = .next t) : t.status.busy = false := by
  rcases complete_cases s with ⟨hb, hc⟩ | ⟨-, i, -, hc⟩ | ⟨-, -, hc⟩ <;> rw [hc] at h <;> cases h
  · exact hb
  · rw [commandEffect_eq]
    exact commandResult_busy i s

/-- Settles O28: the agenda's moves keep the invariant, so the engine's turn after them does not stop. -/
theorem runEndsQuiescent : Obligations.RunEndsQuiescent := by
  intro s hs
  obtain ⟨u, hu, hinv⟩ := performAll_keeps_inv hs s.agenda
  have hrun : Host.Core.run Sys2Proof.core s.agenda.length s = .next { u with agenda := [] } := by
    simpa using run_of_performAll_append hu []
  obtain ⟨t, ht, -⟩ := complete_keeps_inv (inv_with_agenda hinv [])
  have hagenda : t.agenda = [] := agenda_of_perform (m := .engine) ht
  exact ⟨t, run_succ_of_run hrun ((step_nil rfl).trans ht), hagenda, busy_of_complete ht⟩

/-- Without a reset an agenda is some host transactions and then, unless it is at its end, a turn of the engine. -/
theorem exists_hostMoves_append {ms : List Move} (hms : ∀ m ∈ ms, m ≠ .reset) :
    ∃ host rest, ms = host ++ rest ∧ (∀ m ∈ host, isHostMove m = true) ∧ (rest = [] ∨ ∃ later, rest = .engine :: later) := by
  induction ms with
  | nil => exact ⟨[], [], rfl, by simp, .inl rfl⟩
  | cons m ms ih =>
    obtain ⟨hm, hrest⟩ := List.forall_mem_cons.1 hms
    cases m with
    | engine => exact ⟨[], _, rfl, by simp, .inr ⟨ms, rfl⟩⟩
    | reset => exact absurd rfl hm
    | read | write =>
      obtain ⟨host, rest, rfl, hhost, hnext⟩ := ih hrest
      exact ⟨_ :: host, rest, rfl, List.forall_mem_cons.2 ⟨rfl, hhost⟩, hnext⟩

/-- At such a place a step is the engine's turn (R50, R150). -/
theorem step_of_engine_next {rest : List Move} (hrest : rest = [] ∨ ∃ later, rest = .engine :: later) (s : State) :
    step { s with agenda := rest } = complete { s with agenda := rest.tail } := by
  rcases hrest with rfl | ⟨later, rfl⟩
  · exact step_nil rfl
  · exact step_cons (s := { s with agenda := .engine :: later }) rfl

/-- Host transactions on the agenda of a busy core leave its command running (R27, R122). -/
theorem run_host_busy {s : State} (hb : s.status.busy = true) {host rest : List Move} (hagenda : s.agenda = host ++ rest)
    (hhost : ∀ m ∈ host, isHostMove m = true) :
    ∃ u, performAll host s = .next u ∧ SameCommandRunning s u
      ∧ Host.Core.run Sys2Proof.core host.length s = .next { u with agenda := rest } := by
  obtain ⟨u, hu, same⟩ := performAll_host_busy hb hhost
  refine ⟨u, hu, same, ?_⟩
  rw [← run_of_performAll_append hu rest, ← hagenda]

theorem SameCommandRunning.with_agenda {s u : State} (same : SameCommandRunning s u) (ms : List Move) :
    SameCommandRunning s { u with agenda := ms } :=
  ⟨same.data, same.hidden, same.busy, same.done, same.ctxv⟩

/-- The engine's turn in `u` writes the result of the command that `s` runs, and only CLR touches the error field (R46, R50). -/
theorem SameCommandRunning.completes {s u : State} (same : SameCommandRunning s u) {i : Instr} (ho : s.hidden.op = opcodeOf i) :
    ∃ t, complete u = .next t
      ∧ t.dataRegisters = (commandResult i s).dataRegisters
      ∧ t.status.done = (commandResult i s).status.done
      ∧ t.status.ctxv = (commandResult i s).status.ctxv
      ∧ (i = .clr → t.registers = State.reset.registers)
      ∧ (i ≠ .clr → t.status.err = u.status.err ∧ t.status.errcode = u.status.errcode) := by
  have hcomplete := complete_of_latched same.busy (i := i) (by rw [same.hidden, ho])
  obtain ⟨hdone, hctxv⟩ := commandResult_done_ctxv_congr i same.ctxv
  have hdata : (commandResult i u).dataRegisters = (commandResult i s).dataRegisters := by
    rw [dataRegisters_commandResult i u, same.data, ← dataRegisters_commandResult]
  refine ⟨_, hcomplete, hdata, hdone, hctxv, ?_, fun hclr => complete_keeps_error hcomplete ?_⟩
  · rintro rfl
    exact registers_clearRegisters u
  · rintro ⟨-, hop⟩
    rw [same.hidden, ho] at hop
    exact hclr (opcodeOf_injective (j := .clr) hop)

/-- Host transactions keep the error field if an error is recorded already, or if none of them is a write (R31, R121). -/
theorem performAll_host_keeps_error {ms : List Move} {s t : State} (hms : ∀ m ∈ ms, isHostMove m = true)
    (ht : performAll ms s = .next t) (hkept : s.status.err = true ∨ ∀ m ∈ ms, ∀ idx v, m ≠ .write idx v) :
    t.status.err = s.status.err ∧ t.status.errcode = s.status.errcode := by
  induction ms generalizing s with
  | nil => cases ht; exact ⟨rfl, rfl⟩
  | cons m ms ih =>
    obtain ⟨hm, hrest⟩ := List.forall_mem_cons.1 hms
    cases m with
    | read idx => exact ih (s := hostRead idx s) hrest ht (hkept.imp_right fun h => (List.forall_mem_cons.1 h).2)
    | write idx v =>
      have he : s.status.err = true := hkept.resolve_right fun h => h _ List.mem_cons_self idx v rfl
      obtain ⟨u, hw, hms⟩ := performAll_cons_next ht
      obtain ⟨herr, hcode⟩ := memWrite_keeps_recorded_error he hw
      obtain ⟨herr', hcode'⟩ := ih hrest hms (.inl herr)
      exact ⟨herr'.trans (herr.trans he.symm), hcode'.trans hcode⟩
    | engine => cases hm
    | reset => cases hm

/-- Settles O57: the host transactions before the engine's first turn leave the command running, and that turn completes it. -/
theorem acceptedCommandCompletesUnlessReset : Obligations.AcceptedCommandCompletesUnlessReset := by
  intro s i hb ho hreset
  obtain ⟨host, rest, hagenda, hhost, hnext⟩ := exists_hostMoves_append hreset
  obtain ⟨u, hu, same, hrun⟩ := run_host_busy hb hagenda hhost
  obtain ⟨t, ht, hdata, hdone, hctxv, hclr, herror⟩ := (same.with_agenda rest.tail).completes ho
  refine ⟨host.length, t, by simp [hagenda], run_succ_of_run hrun ((step_of_engine_next hnext u).trans ht), fun j hj => ?_,
    busy_of_complete ht, hdata, hdone, hctxv, hclr, fun hi hkept => ?_⟩
  · have hsplit : s.agenda = host.take j ++ (host.drop j ++ rest) := by
      rw [hagenda, ← List.append_assoc, List.take_append_drop]
    obtain ⟨v, -, running, hrunj⟩ := run_host_busy hb hsplit fun m hm => hhost m (List.mem_of_mem_take hm)
    rw [List.length_take_of_le hj] at hrunj
    exact ⟨_, hrunj, running.busy⟩
  · rw [hagenda, List.take_left] at hkept
    obtain ⟨herr, hcode⟩ := herror hi
    obtain ⟨herr', hcode'⟩ := performAll_host_keeps_error hhost hu hkept
    exact ⟨herr.trans herr', hcode.trans hcode'⟩

end Sys2Proof.Machine
end
